-- ==== Sys2Proof/Word.lean ====
section
/-! DEFINITION. The word types of the block (spec/00_scope.md R6; widths of R4, R5 and spec/30_encoding.md R45). -/

namespace Sys2Proof

/-- 8 bits: one unit of a byte sequence (R9), an opcode (R45). -/
abbrev Byte := BitVec 8

/-- 16 bits: the accumulator (R13) and a register value (R5). -/
abbrev Half := BitVec 16

/-- 32 bits: the operand field `arg` (R45) and a combined pattern (R80). -/
abbrev Word := BitVec 32

/-- 40 bits: one command word (R45). -/
abbrev CmdWord := BitVec 40

end Sys2Proof
end

