-- ==== Sys2Proof/Syntax.lean ====
section
/-! DEFINITION. The eight commands (spec/30_encoding.md R47), each operand at the width its field has (R48).
Operands stand in the order of the assembler syntax (R54). -/

namespace Sys2Proof

/-- One constructor per row of spec/opcode_table.json. -/
inductive Instr where
  /-- CRC.INIT (R63). -/
  | crcInit
  /-- CRC.BYTE b (R64). -/
  | crcByte (b : Byte)
  /-- CRC.READ (R65). -/
  | crcRead
  /-- CRC.CHK lo, hi (R66): `lo` is the CRC byte that was first on the wire. -/
  | crcChk (lo hi : Byte)
  /-- DEC.COMBU high, low (R84). -/
  | decCombu (high low : Half)
  /-- DEC.COMBS high, low (R85). -/
  | decCombs (high low : Half)
  /-- DEC.SPLIT reg (R86). -/
  | decSplit (reg : Half)
  /-- DEC.SCALE raw, k (R87). -/
  | decScale (raw : Half) (k : BitVec 4)
deriving DecidableEq, Repr

end Sys2Proof
end

