-- ==== Sys2Proof/WellFormed.lean ====
section
/-! DEFINITION. Well-formedness. Every value of `Instr` is well formed, because each operand's type has exactly its field's
width (spec/30_encoding.md R48); what can be ill formed is an assembler line, whose operands are numbers (R54): an operand
out of range is an assembler error. -/

namespace Sys2Proof

/-- An assembler line: a command with numeric operands (R54) or a pseudo-instruction an assembler can expand (R55).
`DEC.PF` is none: its later commands are built by the host from the first response (`Sys2Proof.Machine.pfScale`). -/
inductive AsmLine where
  | crcInit
  | crcByte (b : Nat)
  | crcRead
  | crcChk (lo hi : Nat)
  | decCombu (high low : Nat)
  | decCombs (high low : Nat)
  | decSplit (reg : Nat)
  | decScale (raw k : Nat)
  /-- CRC.MSG b0, b1, ... -/
  | crcMsg (bytes : List Nat)
  /-- CRC.HALF v -/
  | crcHalf (v : Nat)
  /-- CRC.REQ a, s, n -/
  | crcReq (address startReg count : Nat)
  /-- DEC.COMB high, low, sg -/
  | decComb (high low sg : Nat)
deriving DecidableEq, Repr

/-- The number fits a field of `width` bits. -/
def fits (width n : Nat) : Bool := decide (n < 2 ^ width)

/-- Every operand is in the range R54 and R55 give it. -/
def AsmLine.wellFormed : AsmLine → Bool
  | .crcInit => true
  | .crcByte b => fits 8 b
  | .crcRead => true
  | .crcChk lo hi => fits 8 lo && fits 8 hi
  | .decCombu high low => fits 16 high && fits 16 low
  | .decCombs high low => fits 16 high && fits 16 low
  | .decSplit reg => fits 16 reg
  | .decScale raw k => fits 16 raw && fits 4 k
  | .crcMsg bytes => bytes.all (fits 8)
  | .crcHalf v => fits 16 v
  | .crcReq address startReg count => fits 8 address && fits 16 startReg && fits 16 count
  | .decComb high low sg => fits 16 high && fits 16 low && fits 1 sg

end Sys2Proof
end

