-- ==== Sys2Proof/Decode.lean ====
section
/-! DEFINITION. Decoding a command word, encoding a command and assembling a line (spec/30_encoding.md). -/

namespace Sys2Proof

/-- The formats of the operand field (R46). -/
inductive Format where
  | Z | B | L | P | R | S
deriving DecidableEq, Repr

/-- The eight defined opcodes (R47), by name. -/
inductive Opcode where
  | crcInit | crcByte | crcRead | crcChk | decCombu | decCombs | decSplit | decScale
deriving DecidableEq, Repr

/-- Why a word is the command of no row: the two tests of the decode procedure (R53). Both are answered `Fault Illegal`. -/
inductive DecodeError where
  /-- R50: the opcode is not one of the eight. -/
  | undefinedOpcode (op : Byte)
  /-- R49: a reserved bit of the opcode's format is 1. -/
  | reservedBitSet (o : Opcode)
deriving DecidableEq, Repr

/-- A row of the opcode map (R47). -/
structure OpcodeRow where
  mnemonic : String
  op : Byte
  format : Format
  pattern : CmdWord
  mask : CmdWord
deriving DecidableEq, Repr

/-- The opcode map of R47, row by row. -/
def Opcode.row : Opcode → OpcodeRow
  | .crcInit => ⟨"CRC.INIT", 0x00#8, .Z, 0x0000000000#40, 0xFFFFFFFFFF#40⟩
  | .crcByte => ⟨"CRC.BYTE", 0x01#8, .B, 0x0100000000#40, 0xFFFFFFFF00#40⟩
  | .crcRead => ⟨"CRC.READ", 0x02#8, .Z, 0x0200000000#40, 0xFFFFFFFFFF#40⟩
  | .crcChk => ⟨"CRC.CHK", 0x03#8, .L, 0x0300000000#40, 0xFFFFFF0000#40⟩
  | .decCombu => ⟨"DEC.COMBU", 0x10#8, .P, 0x1000000000#40, 0xFF00000000#40⟩
  | .decCombs => ⟨"DEC.COMBS", 0x11#8, .P, 0x1100000000#40, 0xFF00000000#40⟩
  | .decSplit => ⟨"DEC.SPLIT", 0x12#8, .R, 0x1200000000#40, 0xFFFFFF0000#40⟩
  | .decScale => ⟨"DEC.SCALE", 0x13#8, .S, 0x1300000000#40, 0xFFFFF00000#40⟩

/-- The opcodes in the table's order. -/
def Opcode.all : List Opcode :=
  [.crcInit, .crcByte, .crcRead, .crcChk, .decCombu, .decCombs, .decSplit, .decScale]

/-- Which opcode a command has. -/
def Instr.opcode : Instr → Opcode
  | .crcInit => .crcInit
  | .crcByte _ => .crcByte
  | .crcRead => .crcRead
  | .crcChk _ _ => .crcChk
  | .decCombu _ _ => .decCombu
  | .decCombs _ _ => .decCombs
  | .decSplit _ => .decSplit
  | .decScale _ _ => .decScale

/-- `op = w[39:32]` (R45). -/
def opField (w : CmdWord) : Byte := w.extractLsb' 32 8

/-- `arg = w[31:0]` (R45). -/
def argField (w : CmdWord) : Word := w.extractLsb' 0 32

/-- Step 2 of the decode procedure (R53): the opcode of a defined `op`. -/
def opcodeOf (op : Byte) : Option Opcode :=
  if op = 0x00#8 then some .crcInit
  else if op = 0x01#8 then some .crcByte
  else if op = 0x02#8 then some .crcRead
  else if op = 0x03#8 then some .crcChk
  else if op = 0x10#8 then some .decCombu
  else if op = 0x11#8 then some .decCombs
  else if op = 0x12#8 then some .decSplit
  else if op = 0x13#8 then some .decScale
  else none

/-- The bits of `arg` that a format reserves (the fields marked 0 in R46). -/
def Format.reserved : Format → Word
  | .Z => 0xFFFFFFFF#32
  | .B => 0xFFFFFF00#32
  | .L => 0xFFFF0000#32
  | .P => 0x00000000#32
  | .R => 0xFFFF0000#32
  | .S => 0xFFF00000#32

/-- Step 4 of the decode procedure: the operands, as the bit slices R46 names. -/
def operands (arg : Word) : Opcode → Instr
  | .crcInit => .crcInit
  | .crcByte => .crcByte (arg.extractLsb' 0 8)
  | .crcRead => .crcRead
  | .crcChk => .crcChk (arg.extractLsb' 0 8) (arg.extractLsb' 8 8)
  | .decCombu => .decCombu (arg.extractLsb' 16 16) (arg.extractLsb' 0 16)
  | .decCombs => .decCombs (arg.extractLsb' 16 16) (arg.extractLsb' 0 16)
  | .decSplit => .decSplit (arg.extractLsb' 0 16)
  | .decScale => .decScale (arg.extractLsb' 0 16) (arg.extractLsb' 16 4)

/-- The decode procedure (R53), steps 1 to 4: total on 40-bit words. -/
def decode (w : CmdWord) : Except DecodeError Instr :=
  match opcodeOf (opField w) with
  | none => .error (.undefinedOpcode (opField w))
  | some o =>
    if argField w &&& o.row.format.reserved = 0#32 then .ok (operands (argField w) o)
    else .error (.reservedBitSet o)

/-- The operand field of a command (R46, R54). -/
def encodeArg : Instr → Word
  | .crcInit => 0#32
  | .crcByte b => 0#24 ++ b
  | .crcRead => 0#32
  | .crcChk lo hi => 0#16 ++ (hi ++ lo)
  | .decCombu high low => high ++ low
  | .decCombs high low => high ++ low
  | .decSplit reg => 0#16 ++ reg
  | .decScale raw k => 0#12 ++ (k ++ raw)

/-- The word of a command (R54): opcode above operand field (R45). -/
def encode (i : Instr) : CmdWord := i.opcode.row.op ++ encodeArg i

/-- The word whose bits are `w`, numbered as spec/opcode_table.json numbers them: a command is one 40-bit word, bit 0 its
least significant bit; bits above `nbits` are zero (log entry 9). -/
def tableWord (nbits w : Nat) : CmdWord := BitVec.ofNat 40 (w % 2 ^ nbits)

/-- What the decoder reads from a table word; none where it refuses. -/
def decodeTableWord (nbits w : Nat) : Option Instr :=
  match decode (tableWord nbits w) with
  | .ok i => some i
  | .error _ => none

/-- CRC.MSG (R55). -/
def crcMsg (bytes : List Byte) : List Instr := .crcInit :: bytes.map .crcByte

/-- CRC.HALF (R55): the high byte first. -/
def crcHalf (v : Half) : List Instr := [.crcByte (v.extractLsb' 8 8), .crcByte (v.extractLsb' 0 8)]

/-- CRC.REQ (R55): the CRC of a request frame. -/
def crcReq (address : Byte) (startReg count : Half) : List Instr :=
  crcMsg [address, 0x04#8, startReg.extractLsb' 8 8, startReg.extractLsb' 0 8, count.extractLsb' 8 8, count.extractLsb' 0 8]
    ++ [.crcRead]

/-- DEC.COMB (R55): the mode flag picks the command. -/
def decComb (high low : Half) (sg : Bool) : List Instr :=
  if sg then [.decCombs high low] else [.decCombu high low]

/-- The commands a well-formed line stands for; a command line is one, a pseudo-instruction its expansion. -/
def AsmLine.expand : AsmLine → List Instr
  | .crcInit => [.crcInit]
  | .crcByte b => [.crcByte (BitVec.ofNat 8 b)]
  | .crcRead => [.crcRead]
  | .crcChk lo hi => [.crcChk (BitVec.ofNat 8 lo) (BitVec.ofNat 8 hi)]
  | .decCombu high low => [.decCombu (BitVec.ofNat 16 high) (BitVec.ofNat 16 low)]
  | .decCombs high low => [.decCombs (BitVec.ofNat 16 high) (BitVec.ofNat 16 low)]
  | .decSplit reg => [.decSplit (BitVec.ofNat 16 reg)]
  | .decScale raw k => [.decScale (BitVec.ofNat 16 raw) (BitVec.ofNat 4 k)]
  | .crcMsg bytes => Sys2Proof.crcMsg (bytes.map (BitVec.ofNat 8))
  | .crcHalf v => Sys2Proof.crcHalf (BitVec.ofNat 16 v)
  | .crcReq a s n => Sys2Proof.crcReq (BitVec.ofNat 8 a) (BitVec.ofNat 16 s) (BitVec.ofNat 16 n)
  | .decComb high low sg => Sys2Proof.decComb (BitVec.ofNat 16 high) (BitVec.ofNat 16 low) (sg == 1)

/-- The assembler (R54): the words of a line, or none where an operand is out of range. -/
def assemble (line : AsmLine) : Option (List CmdWord) :=
  if line.wellFormed then some (line.expand.map encode) else none

end Sys2Proof
end

