-- ==== Sys2Proof/Config.lean ====
section
/-! DEFINITION. What is fixed for the life of the block but left open by the spec: the numerics record NUM
(spec/10_state.md R20) and the resolution table RES (R21). Nothing here is state and no command changes it. -/

namespace Sys2Proof

/-- NUM (R20, R83). `mul` and `ofNat` are functions of their operands alone (R93 P1). -/
structure Numerics where
  /-- The number format: any type. -/
  Scalar : Type
  ofNat : Half → Scalar
  mul : Scalar → Scalar → Scalar

/-- The configuration of a block (spec/00_scope.md section 4). -/
structure Config where
  num : Numerics
  /-- RES[0] to RES[15] (R21). -/
  res : Fin 16 → num.Scalar

/-- How the scalars of a number format are read. No part of NUM and used by no command: these are the notions in which R93
states P2 to P5 (log entry 4). -/
structure Reading (Scalar : Type) where
  /-- Neither not-a-number nor infinite. -/
  finite : Scalar → Prop
  /-- The scalar is zero. -/
  zero : Scalar → Prop
  /-- The scalar represents the integer exactly. -/
  represents : Scalar → Nat → Prop
  /-- The scalar that the literal 0.01 denotes. -/
  centi : Scalar
  /-- The scalar that the literal 1.0 denotes. -/
  one : Scalar

/-- What a claim may assume of a numerics record (R93): properties P2 to P4. P1 holds by the types of the fields. -/
structure Numerics.Admissible (num : Numerics) (rd : Reading num.Scalar) : Prop where
  /-- P2. -/
  ofNat_exact : ∀ n : Half, rd.represents (num.ofNat n) n.toNat
  /-- P3. -/
  mul_zero : ∀ r : num.Scalar, rd.finite r → rd.zero (num.mul (num.ofNat 0#16) r)
  /-- P4: the source's `scale(100, 0.01) == 1.0`. -/
  scale_100 : num.mul (num.ofNat 100#16) rd.centi = rd.one

/-- What a claim may assume of a configuration (R93): P2 to P4 of its numerics record, and P5. -/
structure Config.Admissible (c : Config) (rd : Reading c.num.Scalar) : Prop where
  num : c.num.Admissible rd
  /-- P5: every resolution is finite. -/
  res_finite : ∀ k, rd.finite (c.res k)
  /-- P5: every product the block can form is finite. -/
  product_finite : ∀ n k, rd.finite (c.num.mul (c.num.ofNat n) (c.res k))

/-! The configuration of the block that the host's interface runs is OPEN (R20, R21; log entry 4): its parts have no body, so
nothing can be proved of them; P2 to P5 are not assumed of them either. -/

/-- Which codes are scalars of the block, beside the one scalar that always exists, because `NUM.ofNat 0` is one. -/
opaque Config.blockCode : Nat → Bool

/-- `NUM.Scalar` of the block: an open set of codes, so that a scalar in State is plain data (log entry 3). -/
abbrev Config.BlockScalar : Type := Option { code : Nat // Config.blockCode code = true }

/-- `NUM.ofNat` of the block. -/
opaque Config.blockOfNat : Half → Config.BlockScalar

/-- `NUM.mul` of the block. -/
opaque Config.blockMul : Config.BlockScalar → Config.BlockScalar → Config.BlockScalar

/-- RES of the block. -/
opaque Config.blockRes : Fin 16 → Config.BlockScalar

/-- The configuration of the block. -/
abbrev Config.block : Config where
  num := { Scalar := Config.BlockScalar, ofNat := Config.blockOfNat, mul := Config.blockMul }
  res := Config.blockRes

end Sys2Proof
end

