-- ==== Sys2Proof/Machine/Operands.lean ====
section
/-! DEFINITION. Readings and slices of operands (spec/00_scope.md R6, R7) and the functions of the DEC unit
(spec/41_decoder.md R80 to R83). -/

namespace Sys2Proof.Machine

/-- `uint(v)` (R7). -/
def uint {w : Nat} (v : BitVec w) : Nat := v.toNat

/-- `sint(v)`, the two's-complement reading (R7). -/
def sint {w : Nat} (v : BitVec w) : Int :=
  if v.msb then (uint v : Int) - 2 ^ w else (uint v : Int)

/-- The low byte `v[7:0]` of a 16-bit value (R6). -/
def lowByte (v : Half) : Byte := v.extractLsb' 0 8

/-- The high byte `v[15:8]` of a 16-bit value (R6). -/
def highByte (v : Half) : Byte := v.extractLsb' 8 8

/-- `zext_16(b)` of a byte (R7). -/
def zext16 (b : Byte) : Half := b.setWidth 16

/-- `be16(b0, b1)` (spec/20_memory.md R31): the byte at the lower offset is the more significant. -/
def be16 (b0 b1 : Byte) : Half := b0 ++ b1

/-- `pattern(high, low)` (R80). -/
def pattern (high low : Half) : Word := high ++ low

/-- `combine32(high, low, signed)`: the integer the pattern is read as (R80). -/
def combine32 (high low : Half) (signed : Bool) : Int :=
  if signed then sint (pattern high low) else (uint (pattern high low) : Int)

/-- `split8(reg)`: high byte first (R82). -/
def split8 (reg : Half) : Byte × Byte := (highByte reg, lowByte reg)

/-- `scale(raw, r)` (R83): `raw` is read unsigned (log entry 5). -/
def scale (num : Numerics) (raw : Half) (r : num.Scalar) : num.Scalar := num.mul (num.ofNat raw) r

end Sys2Proof.Machine
end

