-- ==== Sys2Proof/Machine/Flags.lean ====
section
/-! DEFINITION. The block keeps no flag and no condition code (spec/10_state.md R17). The one condition it computes is the
outcome of CRC.CHK, which is a response. -/

namespace Sys2Proof.Machine

/-- `ACC == (hi ++ lo)` (spec/40_crc.md R66); `lo` is the trailer byte that was first on the wire. -/
def crcMatches (a : Half) (lo hi : Byte) : Bool := a == hi ++ lo

end Sys2Proof.Machine
end

