-- ==== Sys2Proof/Machine/State.lean ====
section
/-! DEFINITION. The state of the machine (spec/10_state.md section 1), the responses (spec/60_exceptions.md R101), and the
reasons a step could stop. -/

namespace Sys2Proof.Machine

/-- The accumulator ACC (R13, R14): UNWRITTEN from reset to the first CRC.INIT, else 16 bits. UNWRITTEN is a state the spec
gives ACC, not a 16-bit value. -/
inductive Acc where
  | unwritten
  | value (v : Half)
deriving DecidableEq, Repr

/-- The two faults of the command shell (spec/60_exceptions.md section 3). Both are responses: the block goes on (R106). -/
inductive CmdFault where
  /-- R102: the word spells no command. -/
  | illegal
  /-- R103: the command needs the value of ACC and ACC is UNWRITTEN. -/
  | accUninit
deriving DecidableEq, Repr

/-- A response (R101), over the scalars of the number format. `bit true` is `Bit 1`. The integer of `val32` has an unbounded
type (spec/90_conflicts.md C1). -/
inductive Rsp (Scalar : Type) where
  | ack
  | val16 (v : Half)
  | bit (m : Bool)
  | val32 (p : Word) (n : Int)
  | pair8 (hi lo : Byte)
  | scalar (x : Scalar)
  | fault (f : CmdFault)
deriving DecidableEq, Repr

/-- What the outside gives the block: a command word (R3, R8), or the reset event between two commands (R115). -/
inductive Input where
  | command (w : CmdWord)
  | reset
deriving DecidableEq, Repr

/-- The state. The block itself holds ACC and nothing else (R13 to R23); `pending` and `responses` are the model's own, the
host's side of the step (log entries 1 and 2). -/
structure State where
  /-- ACC (R13). -/
  acc : Acc
  /-- The inputs still to come, the next one first. -/
  pending : List Input
  /-- The responses given so far, the oldest first (R126). -/
  responses : List (Rsp Config.block.num.Scalar)
deriving DecidableEq, Repr

/-- Reasons to stop the machine with a fault: there are none. Every command ends with a response (R126), and both faults of
the spec are responses after which the block goes on (R106); they are `CmdFault`. -/
inductive Fault where
deriving DecidableEq, Repr

/-- Reasons to refuse a step. -/
inductive Refusal where
  /-- Raised by an arm of `exec` for a command that has no meaning yet; no arm raises it now. Safe: the machine stops. -/
  | notModelled (mnemonic : String)
deriving DecidableEq, Repr

/-- Right after reset ACC is UNWRITTEN (R24). DESIGN CHOICE (log entries 1 and 2): nothing is pending, no response recorded. -/
def State.reset : State := { acc := .unwritten, pending := [], responses := [] }

end Sys2Proof.Machine
end

