-- ==== Sys2Proof/Machine/Ops.lean ====
section
/-! DEFINITION. The named operations every meaning is built from: the pseudocode primitives of spec/00_scope.md R8, the fault
response (spec/60_exceptions.md R106), the step of a command's rule on the host's side, and the two inputs from outside. There
is no memory operation (spec/20_memory.md R25).

A command's rule is a function from ACC to ACC and the one response, `Acc → Acc × Rsp Scalar` (spec/00_scope.md R3), for the
scalars of any number format. -/

namespace Sys2Proof.Machine

/-- `respond r` (R8): the command's one response, with the ACC it leaves. -/
def respond {Scalar : Type} (r : Rsp Scalar) (a : Acc) : Acc × Rsp Scalar := (a, r)

/-- `fault f` (R8, R106), the block's only exception entry: ACC stays as it was at the start of the command and the response is
`Fault f`. Nothing is saved, no mode changes, control goes nowhere; there is no return from it (R107). -/
def raiseFault {Scalar : Type} (f : CmdFault) (a : Acc) : Acc × Rsp Scalar := respond (.fault f) a

/-- `if ACC is UNWRITTEN then fault AccUninit`, else go on with the value of ACC (R64 to R66, R103). -/
def withAcc {Scalar : Type} (k : Half → Acc × Rsp Scalar) (a : Acc) : Acc × Rsp Scalar :=
  match a with
  | .unwritten => raiseFault .accUninit a
  | .value v => k v

/-- The machine takes a command's rule: ACC as the rule leaves it, the response given to the host (log entry 2). -/
def perform (rule : Acc → Acc × Rsp Config.block.num.Scalar) (s : State) : Host.Outcome State Fault Refusal :=
  .next { s with acc := (rule s.acc).1, responses := s.responses ++ [(rule s.acc).2] }

/-- The response with its scalar, if it has one, read in another number format. -/
def Rsp.map {S T : Type} (f : S → T) : Rsp S → Rsp T
  | .ack => .ack
  | .val16 v => .val16 v
  | .bit m => .bit m
  | .val32 p n => .val32 p n
  | .pair8 hi lo => .pair8 hi lo
  | .scalar x => .scalar (f x)
  | .fault e => .fault e

/-- The reset event (spec/70_reset_and_hazards.md R115): ACC is UNWRITTEN whatever it was; no response. What the host has yet
to give and what it was answered are not the block's, so they stay (log entry 1). -/
def resetEvent (s : State) : Host.Outcome State Fault Refusal := .next { s with acc := .unwritten }

/-- The next input and the state without it; none when the host gives nothing. -/
def takeInput (s : State) : Option (Input × State) :=
  match s.pending with
  | [] => none
  | x :: rest => some (x, { s with pending := rest })

/-- The host gives `x` next. -/
def State.offer (x : Input) (s : State) : State := { s with pending := x :: s.pending }

/-- The code of a fault (spec/60_exceptions.md section 3). -/
def CmdFault.code : CmdFault → Nat
  | .illegal => 1
  | .accUninit => 2

end Sys2Proof.Machine
end

