-- ==== Sys2Proof/Machine/Crc.lean ====
section
/-! DEFINITION. The CRC unit (spec/40_crc.md): its functions R60 to R62 and the meanings of its commands R63 to R66. -/

namespace Sys2Proof.Machine

/-- `CRC_INIT` (spec/10_state.md R18), hardwired. -/
def crcInitValue : Half := 0xFFFF#16

/-- `CRC_POLY` (R18), hardwired. -/
def crcPoly : Half := 0xA001#16

/-- `crc_bit` (R60): the low bit is tested before the shift, the XOR comes after it. -/
def crcBit (a : Half) : Half := if a.getLsbD 0 then (a >>> 1) ^^^ crcPoly else a >>> 1

/-- `crc_byte` (R61): the byte goes into the low byte, then exactly eight iterations. -/
def crcByte (a : Half) (b : Byte) : Half :=
  crcBit (crcBit (crcBit (crcBit (crcBit (crcBit (crcBit (crcBit (a ^^^ zext16 b))))))))

/-- `compute_crc` (R62): the left fold of `crc_byte` from 0xFFFF; no final XOR, no reversal. -/
def computeCrc (bytes : List Byte) : Half := bytes.foldl crcByte crcInitValue

/-- An entry of the 256-entry table a table-driven circuit holds (R72). -/
def crcTable (i : Byte) : Half := crcByte 0#16 i

/-- The table-driven form of `crc_byte` (R72): conforming if and only if it equals R61. No command uses it. -/
def crcByteByTable (a : Half) (b : Byte) : Half := (a >>> 8) ^^^ crcTable (lowByte a ^^^ b)

/-! The commands: the rule of each on ACC, and its meaning, the machine taking that rule. -/

/-- CRC.INIT (R63). -/
def crcInitRule {Scalar : Type} (_ : Acc) : Acc × Rsp Scalar := respond .ack (.value crcInitValue)

/-- CRC.BYTE b (R64). -/
def crcByteRule {Scalar : Type} (b : Byte) : Acc → Acc × Rsp Scalar :=
  withAcc fun v => respond .ack (.value (crcByte v b))

/-- CRC.READ (R65). -/
def crcReadRule {Scalar : Type} : Acc → Acc × Rsp Scalar := withAcc fun v => respond (.val16 v) (.value v)

/-- CRC.CHK lo, hi (R66): a mismatch is the response `Bit 0`, no fault (spec/60_exceptions.md R104). -/
def crcChkRule {Scalar : Type} (lo hi : Byte) : Acc → Acc × Rsp Scalar :=
  withAcc fun v => respond (.bit (crcMatches v lo hi)) (.value v)

def execCrcInit (s : State) : Host.Outcome State Fault Refusal := perform crcInitRule s

def execCrcByte (b : Byte) (s : State) : Host.Outcome State Fault Refusal := perform (crcByteRule b) s

def execCrcRead (s : State) : Host.Outcome State Fault Refusal := perform crcReadRule s

def execCrcChk (lo hi : Byte) (s : State) : Host.Outcome State Fault Refusal := perform (crcChkRule lo hi) s

end Sys2Proof.Machine
end

