-- ==== Sys2Proof/Machine/Dec.lean ====
section
/-! DEFINITION. The DEC unit (spec/41_decoder.md): the commands R84 to R87, each its rule on ACC and
its meaning, the machine taking that rule. None reads or writes ACC (R88). -/

namespace Sys2Proof.Machine

/-- The response of DEC.SCALE under a configuration (R87): `k` selects the resolution. -/
def scaleResponse (c : Config) (raw : Half) (k : BitVec 4) : Rsp c.num.Scalar :=
  .scalar (scale c.num raw (c.res k.toFin))

/-- DEC.COMBU high, low (R84). -/
def decCombuRule {Scalar : Type} (high low : Half) : Acc → Acc × Rsp Scalar :=
  respond (.val32 (pattern high low) (combine32 high low false))

/-- DEC.COMBS high, low (R85). -/
def decCombsRule {Scalar : Type} (high low : Half) : Acc → Acc × Rsp Scalar :=
  respond (.val32 (pattern high low) (combine32 high low true))

/-- DEC.SPLIT reg (R86). -/
def decSplitRule {Scalar : Type} (reg : Half) : Acc → Acc × Rsp Scalar :=
  respond (.pair8 (split8 reg).1 (split8 reg).2)

/-- DEC.SCALE raw, k (R87): the only command that uses the configuration. -/
def decScaleRule (c : Config) (raw : Half) (k : BitVec 4) : Acc → Acc × Rsp c.num.Scalar :=
  respond (scaleResponse c raw k)

def execDecCombu (high low : Half) (s : State) : Host.Outcome State Fault Refusal := perform (decCombuRule high low) s

def execDecCombs (high low : Half) (s : State) : Host.Outcome State Fault Refusal := perform (decCombsRule high low) s

def execDecSplit (reg : Half) (s : State) : Host.Outcome State Fault Refusal := perform (decSplitRule reg) s

/-- DEC.SCALE runs under the configuration of the block, which is open (log entry 4). -/
def execDecScale (raw : Half) (k : BitVec 4) (s : State) : Host.Outcome State Fault Refusal :=
  perform (decScaleRule Config.block raw k) s

end Sys2Proof.Machine
end

