-- ==== Sys2Proof/Machine/Dispatch.lean ====
section
/-! DEFINITION. One arm per command of spec/opcode_table.json. -/

namespace Sys2Proof.Machine

def exec (i : Instr) (s : State) : Host.Outcome State Fault Refusal :=
  match i with
  | .crcInit => Sys2Proof.Machine.execCrcInit s
  | .crcByte b => Sys2Proof.Machine.execCrcByte b s
  | .crcRead => Sys2Proof.Machine.execCrcRead s
  | .crcChk lo hi => Sys2Proof.Machine.execCrcChk lo hi s
  | .decCombu high low => Sys2Proof.Machine.execDecCombu high low s
  | .decCombs high low => Sys2Proof.Machine.execDecCombs high low s
  | .decSplit reg => Sys2Proof.Machine.execDecSplit reg s
  | .decScale raw k => Sys2Proof.Machine.execDecScale raw k s

end Sys2Proof.Machine
end

