-- ==== Sys2Proof/Machine/Execute.lean ====
section
/-! DEFINITION. Executing one command word: the decode procedure with its verdict (spec/30_encoding.md R53). -/

namespace Sys2Proof.Machine

/-- R53: an illegal word is answered `Fault Illegal` before ACC is looked at (R105); a legal one runs its command's rule. -/
def execute (w : CmdWord) (s : State) : Host.Outcome State Fault Refusal :=
  match decode w with
  | .error _ => perform (raiseFault .illegal) s
  | .ok i => exec i s

end Sys2Proof.Machine
end

