-- ==== Sys2Proof/Machine/Step.lean ====
section
/-! DEFINITION. One step: the block takes the next input from outside (spec/00_scope.md R3). -/

namespace Sys2Proof.Machine

/-- A command is executed (R3); the reset event resets (R115); with nothing given the block does nothing (log entry 1). -/
def step (s : State) : Host.Outcome State Fault Refusal :=
  match takeInput s with
  | none => .next s
  | some (.reset, t) => resetEvent t
  | some (.command w, t) => execute w t

/-- `s` with the word of `w`'s low `nbits` bits as the next command, ahead of whatever was pending (log entry 9). -/
def State.withFetchWord (s : State) (nbits w : Nat) : State := s.offer (.command (tableWord nbits w))

end Sys2Proof.Machine
end

