-- ==== Sys2Proof/Machine/Block.lean ====
section
/-! DEFINITION. The block in the shape spec/00_scope.md R3 gives it, under every configuration: `step : Config -> State -> Cmd
-> State x Rsp` and `run : Config -> State -> List Cmd -> State x List Rsp`, where the block's state is ACC. The step of the
host's interface is this one under `Config.block`. -/

namespace Sys2Proof.Machine

/-- The rule of a command under a configuration. -/
def commandRule (c : Config) (i : Instr) : Acc → Acc × Rsp c.num.Scalar :=
  match i with
  | .crcInit => crcInitRule
  | .crcByte b => crcByteRule b
  | .crcRead => crcReadRule
  | .crcChk lo hi => crcChkRule lo hi
  | .decCombu high low => decCombuRule high low
  | .decCombs high low => decCombsRule high low
  | .decSplit reg => decSplitRule reg
  | .decScale raw k => decScaleRule c raw k

/-- `step` (R3, spec/30_encoding.md R53): total on 40-bit words. -/
def blockStep (c : Config) (a : Acc) (w : CmdWord) : Acc × Rsp c.num.Scalar :=
  match decode w with
  | .error _ => raiseFault .illegal a
  | .ok i => commandRule c i a

/-- `run` (R3, spec/70_reset_and_hazards.md R126): the final ACC and the responses, one per command. -/
def blockRun (c : Config) (a : Acc) : List CmdWord → Acc × List (Rsp c.num.Scalar)
  | [] => (a, [])
  | w :: ws =>
    let (a', r) := blockStep c a w
    let (a'', rs) := blockRun c a' ws
    (a'', r :: rs)

end Sys2Proof.Machine
end

