-- ==== Sys2Proof/Machine/Instances.lean ====
section
/-! DEFINITION. The two example instances of NUM that spec/41_decoder.md R93 names, each with the reading of its scalars. They
are examples only: `exec` uses neither, and a claim about a particular scaled value names its instance. -/

namespace Sys2Proof.Machine

/-- Exact rational arithmetic (R93). -/
abbrev exactNum : Numerics where
  Scalar := Rat
  ofNat n := (n.toNat : Rat)
  mul a b := a * b

/-- Every rational is finite and is the number it is. -/
def exactReading : Reading Rat where
  finite _ := True
  zero x := x = 0
  represents x n := x = (n : Rat)
  centi := 1 / 100
  one := 1

/-! IEEE 754 binary32 (R93, general knowledge). PRESUMED (log entry 6; spec/93_implementation_defined.md G2). A scalar is its
32-bit pattern: sign in bit 31, exponent field in bits 30 to 23, fraction in bits 22 to 0. -/

/-- 2 to an integer power. -/
def pow2 : Int → Rat
  | .ofNat n => ((2 ^ n : Nat) : Rat)
  | .negSucc n => 1 / ((2 ^ (n + 1) : Nat) : Rat)

/-- The nearest integer, ties to even. -/
def halfEven (q : Rat) : Int :=
  let f := q.floor
  let r := q - (f : Rat)
  if r < 1 / 2 then f else if 1 / 2 < r then f + 1 else if f % 2 = 0 then f else f + 1

/-- The exponent `e` with `2^e ≤ q < 2^(e+1)`, for a positive `q`. -/
def binade (q : Rat) : Int :=
  let e : Int := (Nat.log2 q.num.natAbs : Int) - (Nat.log2 q.den : Int)
  if q < pow2 e then e - 1 else e

/-- The exponent field. -/
def exponent32 (p : Word) : Nat := (p.extractLsb' 23 8).toNat

/-- The fraction field. -/
def fraction32 (p : Word) : Nat := (p.extractLsb' 0 23).toNat

/-- Neither infinite nor not-a-number. -/
def isFinite32 (p : Word) : Bool := exponent32 p != 255

/-- One of the two zeros. -/
def isZero32 (p : Word) : Bool := exponent32 p == 0 && fraction32 p == 0

/-- Not-a-number. -/
def isNan32 (p : Word) : Bool := exponent32 p == 255 && fraction32 p != 0

/-- The magnitude a finite pattern denotes: `fraction * 2^-149` for an exponent field of zero, else with the implicit top bit. -/
def magnitude32 (p : Word) : Rat :=
  if exponent32 p = 0 then (fraction32 p : Rat) * pow2 (-149)
  else ((2 ^ 23 + fraction32 p : Nat) : Rat) * pow2 ((exponent32 p : Int) - 150)

/-- The number a finite pattern denotes. -/
def value32 (p : Word) : Rat := if p.msb then -magnitude32 p else magnitude32 p

/-- A pattern from its sign and its lower 31 bits. -/
def sign32 (negative : Bool) (lower : Nat) : Word := BitVec.ofBool negative ++ BitVec.ofNat 31 lower

/-- The pattern of a magnitude, rounded once to nearest, ties to even. The lower 31 bits count the representable magnitudes
upwards, so a carry out of the fraction is the next exponent, and too large a magnitude is infinity. -/
def round32 (negative : Bool) (a : Rat) : Word :=
  if a = 0 then sign32 negative 0
  else
    let unit := max (binade a) (-126) - 23
    sign32 negative (min ((unit + 149).toNat * 2 ^ 23 + (halfEven (a / pow2 unit)).toNat) 0x7F800000)

/-- The product: one rounding (R93); an infinity times zero is not-a-number. -/
def mul32 (a b : Word) : Word :=
  let negative := a.msb != b.msb
  if isFinite32 a && isFinite32 b then round32 negative (magnitude32 a * magnitude32 b)
  else if isNan32 a || isNan32 b || isZero32 a || isZero32 b then 0x7FC00000#32
  else sign32 negative 0x7F800000

/-- The pattern of an integer below 2^16: its bits below the leading one, at place `log2 n`, are the top of the fraction. -/
def ofNat32 (n : Half) : Word :=
  if n = 0#16 then 0#32
  else
    let k := n.toNat.log2
    BitVec.ofNat 32 ((k + 126) * 2 ^ 23 + n.toNat * 2 ^ (23 - k))

/-- IEEE 754 binary32. -/
abbrev binary32Num : Numerics where
  Scalar := Word
  ofNat := ofNat32
  mul := mul32

/-- A pattern represents the integer it denotes; the literals are the patterns R93 gives. -/
def binary32Reading : Reading Word where
  finite p := isFinite32 p = true
  zero p := isZero32 p = true
  represents p n := isFinite32 p = true ∧ value32 p = (n : Rat)
  centi := 0x3C23D70A#32
  one := 0x3F800000#32

end Sys2Proof.Machine
end

