-- ==== Sys2Proof/Machine/Frames.lean ====
section
/-! DEFINITION. Frames, the encoding of the block's inputs and result on the wire (spec/20_memory.md), and the command
sequences the host builds on the block (spec/40_crc.md R73, spec/30_encoding.md R55). They are host-level functions, not
commands (R35 to R37). -/

namespace Sys2Proof.Machine

/-- The fixed read function code of a request (R27). -/
def funcReadInput : Byte := 0x04#8

/-- The two bytes of a 16-bit field in big-endian order (R31). -/
def beBytes (v : Half) : List Byte := [highByte v, lowByte v]

/-- `seal(M)` (R35), for which Lean has a keyword: the message and its CRC, low byte first (R30). -/
def sealFrame (m : List Byte) : List Byte := m ++ [lowByte (computeCrc m), highByte (computeCrc m)]

/-- The message part of a request frame (R27). -/
def requestMessage (address : Byte) (startReg count : Half) : List Byte :=
  [address, funcReadInput] ++ beBytes startReg ++ beBytes count

/-- A request frame (R27, R35). -/
def request (address : Byte) (startReg count : Half) : List Byte := sealFrame (requestMessage address startReg count)

/-- The message part of a response frame (R28); address, function and byte count may hold anything (R38). -/
def responseMessage (address function byteCount : Byte) (values : List Half) : List Byte :=
  [address, function, byteCount] ++ values.flatMap beBytes

/-- A response frame (R28). -/
def response (address function byteCount : Byte) (values : List Half) : List Byte :=
  sealFrame (responseMessage address function byteCount values)

/-- The length of the response to a request for `count` registers (R28). -/
def responseLength (count : Half) : Nat := 3 + count.toNat * 2 + 2

/-- `F[i]` (R26), for an offset inside the frame; zero outside, where nothing is read (DESIGN CHOICE, log entry 7). -/
def byteAt (f : List Byte) (i : Nat) : Byte := f.getD i 0#8

/-- The bytes the CRC covers (R29): all but the last two, of a frame of at least two (log entry 7). -/
def covered (f : List Byte) : List Byte := f.take (f.length - 2)

/-- The received CRC `F[L-1] ++ F[L-2]` (R30), of a frame of at least two bytes (log entry 7). -/
def receivedCrc (f : List Byte) : Half := byteAt f (f.length - 1) ++ byteAt f (f.length - 2)

/-- `check(F)` (R36); undefined, here none, for fewer than two bytes (log entry 7). -/
def check (f : List Byte) : Option Bool :=
  if 2 ≤ f.length then some (computeCrc (covered f) == receivedCrc f) else none

/-- Register value `i` of a response: `be16(F[3+2i], F[4+2i])` (R32). -/
def registerValue (f : List Byte) (i : Nat) : Half := be16 (byteAt f (3 + 2 * i)) (byteAt f (4 + 2 * i))

/-- `regs(F, n)` (R37), for a frame of length `3 + 2n + 2`; none for another length (log entry 7). -/
def regs (f : List Byte) (n : Nat) : Option (List Half) :=
  if f.length = 3 + 2 * n + 2 then some ((List.range n).map (registerValue f)) else none

/-- The commands that build a frame's CRC (R73). -/
def buildCommands (m : List Byte) : List Instr := crcMsg m ++ [.crcRead]

/-- The commands that validate a frame (R73). Validating is `check`, so below two bytes the sequence is as undefined as `check`
is (R36, spec/93_implementation_defined.md U11); here none, DESIGN CHOICE (log entry 7). -/
def validateCommands (f : List Byte) : Option (List Instr) :=
  if 2 ≤ f.length then some (crcMsg (covered f) ++ [.crcChk (byteAt f (f.length - 2)) (byteAt f (f.length - 1))]) else none

/-- The scaling commands of DEC.PF (R55, R90), which the host builds from the split's response. -/
def pfScale (hi lo : Byte) (kHi kLo : BitVec 4) : List Instr :=
  [.decScale (zext16 hi) kHi, .decScale (zext16 lo) kLo]

end Sys2Proof.Machine
end

