-- ==== Sys2Proof/Machine/Run.lean ====
section
/-! DEFINITION. A run: a finite list of inputs given to the block one by one (spec/00_scope.md section 4,
spec/70_reset_and_hazards.md R126). -/

namespace Sys2Proof.Machine

/-- The fold of `step` over a list of inputs, each offered ahead of whatever is pending. -/
def runInputs : List Input → State → Host.Outcome State Fault Refusal
  | [], s => .next s
  | x :: xs, s =>
    match step (s.offer x) with
    | .next t => runInputs xs t
    | .fault f => .fault f
    | .refused r => .refused r

/-- A run of command words (R126). -/
def runWords (ws : List CmdWord) (s : State) : Host.Outcome State Fault Refusal := runInputs (ws.map .command) s

/-- A run of commands, by their words. -/
def runInstrs (is : List Instr) (s : State) : Host.Outcome State Fault Refusal := runWords (is.map encode) s

end Sys2Proof.Machine
end

