-- ==== Sys2Proof/Safety.lean ====
section
/-! DEFINITION. The terms claims are stated in: clean runs (spec/70_reset_and_hazards.md R126), which responses a command may
give (spec/60_exceptions.md R101), and the bytes fed since the last CRC.INIT (spec/10_state.md R13). -/

namespace Sys2Proof.Machine

/-- The response is a `Fault`. -/
def Rsp.isFault {S : Type} : Rsp S → Bool
  | .fault _ => true
  | _ => false

/-- No recorded response is a `Fault` (R126). -/
def State.clean (s : State) : Bool := s.responses.all fun r => !r.isFault

/-- The integer of a `Val32` is one of the two readings of its pattern (R101). -/
def Rsp.wellFormed {S : Type} : Rsp S → Bool
  | .val32 p n => n == (uint p : Int) || n == sint p
  | _ => true

/-- Every recorded response is well formed: an invariant of the machine. -/
def State.ResponsesWellFormed (s : State) : Prop := ∀ r ∈ s.responses, r.wellFormed = true

end Sys2Proof.Machine

namespace Sys2Proof

open Machine

/-- The kind of response R101 lists for a command that does not fault. -/
def Instr.ofKind {S : Type} (i : Instr) (r : Rsp S) : Prop :=
  match i with
  | .crcInit => r = .ack
  | .crcByte _ => r = .ack
  | .crcRead => ∃ v, r = .val16 v
  | .crcChk _ _ => ∃ m, r = .bit m
  | .decCombu _ _ => ∃ p, r = .val32 p (uint p : Int)
  | .decCombs _ _ => ∃ p, r = .val32 p (sint p)
  | .decSplit _ => ∃ hi lo, r = .pair8 hi lo
  | .decScale _ _ => ∃ x, r = .scalar x

/-- The command belongs to the DEC unit (R88). -/
def Instr.isDec : Instr → Bool
  | .decCombu _ _ => true
  | .decCombs _ _ => true
  | .decSplit _ => true
  | .decScale _ _ => true
  | _ => false

end Sys2Proof

namespace Sys2Proof.Machine

/-- The word feeds a byte to the CRC unit. -/
def fedByte (w : CmdWord) : Option Byte :=
  match decode w with
  | .ok (.crcByte b) => some b
  | _ => none

/-- The bytes fed since the last CRC.INIT, none while no CRC.INIT came since reset, brought up to date over one input. This is
bookkeeping of a claim, no state of the block, which remembers no bytes (R22). -/
def fedAfter (x : Option Input) (fed : Option (List Byte)) : Option (List Byte) :=
  match x with
  | none => fed
  | some .reset => none
  | some (.command w) =>
    match decode w with
    | .ok .crcInit => some []
    | .ok (.crcByte b) => fed.map (· ++ [b])
    | _ => fed

/-- ACC is what R13 says it is after the bytes `fed`. -/
def AccHolds (fed : Option (List Byte)) (a : Acc) : Prop :=
  match fed with
  | none => a = .unwritten
  | some bytes => a = .value (computeCrc bytes)

end Sys2Proof.Machine
end

