-- ==== Sys2Proof/Certificates/Slice0/Obligations.lean ====
section
/-! DEFINITION. The statements for the provers, from the numbered rules of spec/. `step (s.offer (.command w))` is the block
given the command word `w` in state `s`; `blockStep c a w` is the block of spec/00_scope.md R3 under configuration `c`. -/

open Sys2Proof Sys2Proof.Machine

/-! Encoding -/

/-- Sanity: words written out from the encodings (R46, R47) decode to the commands they stand for. -/
def Obligations.DecodeReadsWordsOfTheEncodings : Prop :=
  decode 0x01000000F8#40 = .ok (.crcByte 0xF8#8) ∧
  decode 0x0300007793#40 = .ok (.crcChk 0x93#8 0x77#8) ∧
  decode 0x1180000001#40 = .ok (.decCombs 0x8000#16 0x0001#16) ∧
  decode 0x13000FFFFE#40 = .ok (.decScale 0xFFFE#16 15#4) ∧
  decode 0x0F00000000#40 = .error (.undefinedOpcode 0x0F#8)

/-- Every command, with every operand, is read back from its word (R45, R46, R48, R54). -/
def Obligations.DecodeOfEncodeIsTheCommand : Prop := ∀ i : Instr, decode (encode i) = .ok i

/-- No command has two spellings: a word that decodes is the encoding of what it decodes to (R49: reserved bits are never
ignored). -/
def Obligations.EncodeOfDecodeIsTheWord : Prop := ∀ (w : CmdWord) (i : Instr), decode w = .ok i → encode i = w

/-- R47: the opcode map; bit 4 of the opcode tells the unit and bit 0 of 0x10/0x11 is the signed flag; a word is the command
of a row when `(w and mask) == match`; the rows are disjoint; a word that matches none is illegal. -/
def Obligations.MaskAndMatchSelectTheCommand : Prop :=
  Opcode.all.map (fun o => (o.row.op, o.row.mnemonic, o.row.format, o.row.pattern, o.row.mask)) =
    [(0x00#8, "CRC.INIT", Format.Z, 0x0000000000#40, 0xFFFFFFFFFF#40),
     (0x01#8, "CRC.BYTE", Format.B, 0x0100000000#40, 0xFFFFFFFF00#40),
     (0x02#8, "CRC.READ", Format.Z, 0x0200000000#40, 0xFFFFFFFFFF#40),
     (0x03#8, "CRC.CHK", Format.L, 0x0300000000#40, 0xFFFFFF0000#40),
     (0x10#8, "DEC.COMBU", Format.P, 0x1000000000#40, 0xFF00000000#40),
     (0x11#8, "DEC.COMBS", Format.P, 0x1100000000#40, 0xFF00000000#40),
     (0x12#8, "DEC.SPLIT", Format.R, 0x1200000000#40, 0xFFFFFF0000#40),
     (0x13#8, "DEC.SCALE", Format.S, 0x1300000000#40, 0xFFFFF00000#40)] ∧
  (∀ i : Instr, i.opcode.row.op.getLsbD 4 = i.isDec) ∧
  (∀ (high low : Half) (signed : Bool), ∀ i ∈ decComb high low signed, i.opcode.row.op.getLsbD 0 = signed) ∧
  (∀ (w : CmdWord) (o : Opcode), w &&& o.row.mask = o.row.pattern ↔ ∃ i, decode w = .ok i ∧ i.opcode = o) ∧
  (∀ (w : CmdWord) (o o' : Opcode), w &&& o.row.mask = o.row.pattern → w &&& o'.row.mask = o'.row.pattern → o = o') ∧
  (∀ (w : CmdWord) (s : State), (∀ o : Opcode, w &&& o.row.mask ≠ o.row.pattern) →
    step (s.offer (.command w)) = .next { s with responses := s.responses ++ [.fault .illegal] })

/-- R49, R50, R102: a word with an undefined opcode, or with a 1 in a reserved field of its format, leaves the state as it is
(ACC UNWRITTEN or not) and is answered `Fault Illegal`. -/
def Obligations.IllegalWordsAnswerIllegalAndChangeNothing : Prop :=
  ∀ (op : Byte) (arg : Word) (s : State),
    (op ∉ [0x00#8, 0x01#8, 0x02#8, 0x03#8, 0x10#8, 0x11#8, 0x12#8, 0x13#8]
      ∨ (op = 0x00#8 ∨ op = 0x02#8) ∧ arg ≠ 0#32
      ∨ op = 0x01#8 ∧ arg.extractLsb' 8 24 ≠ 0#24
      ∨ (op = 0x03#8 ∨ op = 0x12#8) ∧ arg.extractLsb' 16 16 ≠ 0#16
      ∨ op = 0x13#8 ∧ arg.extractLsb' 20 12 ≠ 0#12) →
    step (s.offer (.command (op ++ arg))) = .next { s with responses := s.responses ++ [.fault .illegal] }

/-- R54: every command line gives its listed word when its operands are in range, every operand out of range is an assembler
error, and no word the assembler emits has a reserved bit set. -/
def Obligations.AssemblerEmitsTheListedLegalWords : Prop :=
  assemble .crcInit = some [0x0000000000#40] ∧
  assemble .crcRead = some [0x0200000000#40] ∧
  (∀ b, b ≤ 0xFF → assemble (.crcByte b) = some [BitVec.ofNat 40 (0x0100000000 + b)]) ∧
  (∀ lo hi, lo ≤ 0xFF → hi ≤ 0xFF →
    assemble (.crcChk lo hi) = some [BitVec.ofNat 40 (0x0300000000 + hi * 0x100 + lo)]) ∧
  (∀ high low, high ≤ 0xFFFF → low ≤ 0xFFFF →
    assemble (.decCombu high low) = some [BitVec.ofNat 40 (0x1000000000 + high * 0x10000 + low)] ∧
    assemble (.decCombs high low) = some [BitVec.ofNat 40 (0x1100000000 + high * 0x10000 + low)]) ∧
  (∀ reg, reg ≤ 0xFFFF → assemble (.decSplit reg) = some [BitVec.ofNat 40 (0x1200000000 + reg)]) ∧
  (∀ raw k, raw ≤ 0xFFFF → k ≤ 15 →
    assemble (.decScale raw k) = some [BitVec.ofNat 40 (0x1300000000 + k * 0x10000 + raw)]) ∧
  (∀ b, 0xFF < b → assemble (.crcByte b) = none) ∧
  (∀ lo hi, 0xFF < lo ∨ 0xFF < hi → assemble (.crcChk lo hi) = none) ∧
  (∀ high low, 0xFFFF < high ∨ 0xFFFF < low →
    assemble (.decCombu high low) = none ∧ assemble (.decCombs high low) = none) ∧
  (∀ reg, 0xFFFF < reg → assemble (.decSplit reg) = none) ∧
  (∀ raw k, 0xFFFF < raw ∨ 15 < k → assemble (.decScale raw k) = none) ∧
  (∀ line ws, assemble line = some ws → ∀ w ∈ ws, ∃ i, decode w = .ok i)

/-- R55 with R27: from every state, CRC.REQ answers six fed bytes and then the CRC of the request's message; CRC.HALF feeds
the high byte first. -/
def Obligations.PseudoInstructionsFeedFieldsHighByteFirst : Prop :=
  (∀ (address : Byte) (startReg count : Half) (s : State),
    ∃ t, runInstrs (crcReq address startReg count) s = .next t ∧
      t.acc = .value (computeCrc (requestMessage address startReg count)) ∧
      t.responses = s.responses ++ List.replicate 7 .ack
        ++ [.val16 (computeCrc (requestMessage address startReg count))]) ∧
  (∀ (v a : Half) (s : State), s.acc = .value a →
    runInstrs (crcHalf v) s = .next
      { s with acc := .value (crcByte (crcByte a (highByte v)) (lowByte v)), responses := s.responses ++ [.ack, .ack] })

/-! The CRC functions -/

/-- R60: one iteration; the low bit is tested before the shift, a zero enters at bit 15, bit 15 of the result is the old low
bit. -/
def Obligations.CrcBitIsOneIteration : Prop :=
  (∀ a : Half, crcBit a =
    if a.getLsbD 0 then (0#1 ++ a.extractLsb' 1 15) ^^^ 0xA001#16 else 0#1 ++ a.extractLsb' 1 15) ∧
  (∀ a : Half, (crcBit a).getLsbD 15 = a.getLsbD 0) ∧
  [0x0000#16, 0x0001#16, 0x0002#16, 0x0003#16, 0x8000#16, 0xFFFF#16, 0xA001#16].map crcBit =
    [0x0000#16, 0xA001#16, 0x0001#16, 0xA000#16, 0x4000#16, 0xDFFE#16, 0xF001#16]

/-- R61: the byte is XORed into the low byte, the high byte stays, then exactly eight iterations. -/
def Obligations.CrcByteIsEightIterations : Prop :=
  (∀ (a : Half) (b : Byte), crcByte a b = crcBit^[8] (highByte a ++ (lowByte a ^^^ b))) ∧
  crcByte 0xFFFF#16 0x00#8 = 0x40BF#16 ∧ crcByte 0xFFFF#16 0xFF#8 = 0x00FF#16 ∧ crcByte 0x0000#16 0x00#8 = 0x0000#16 ∧
  crcByte 0x0000#16 0x01#8 = 0xC0C1#16 ∧ crcByte 0x0000#16 0x80#8 = 0xA001#16 ∧ crcByte 0x0000#16 0xFF#8 = 0x4040#16 ∧
  crcByte 0x1234#16 0x34#8 = 0x0012#16 ∧ crcByte 0xFFFF#16 0xF8#8 = 0xC2BE#16

/-- R62: the empty sequence gives 0xFFFF and each byte more is one `crc_byte`. -/
def Obligations.ComputeCrcIsTheFoldFromAllOnes : Prop :=
  computeCrc [] = 0xFFFF#16 ∧
  (∀ (bytes : List Byte) (b : Byte), computeCrc (bytes ++ [b]) = crcByte (computeCrc bytes) b) ∧
  (∀ bytes : List Byte, computeCrc bytes = bytes.foldl crcByte 0xFFFF#16)

/-- R69: the result depends on the order of the bytes. -/
def Obligations.CrcIsOrderSensitive : Prop :=
  computeCrc [0xF8#8, 0x04#8, 0x00#8, 0x00#8, 0x00#8, 0x03#8] = 0x62A4#16 ∧
  computeCrc [0x03#8, 0x00#8, 0x00#8, 0x00#8, 0x04#8, 0xF8#8] = 0x6A03#16 ∧
  ∃ bytes more : List Byte, computeCrc (bytes ++ more) ≠ computeCrc (more ++ bytes)

/-- R70: the residue law, its converse, and the bijections it rests on. -/
def Obligations.ResidueIsZeroExactlyForTheRightTrailer : Prop :=
  (∀ m : List Byte, computeCrc (m ++ [lowByte (computeCrc m)]) = zext16 (highByte (computeCrc m))) ∧
  (∀ m : List Byte, computeCrc (m ++ [lowByte (computeCrc m), highByte (computeCrc m)]) = 0x0000#16) ∧
  (∀ (m : List Byte) (s : State), ∃ t, runInstrs (crcMsg (sealFrame m)) s = .next t ∧ t.acc = .value 0x0000#16) ∧
  (∀ (m : List Byte) (t0 t1 : Byte), computeCrc (m ++ [t0, t1]) = 0x0000#16 →
    t0 = lowByte (computeCrc m) ∧ t1 = highByte (computeCrc m)) ∧
  Function.Bijective crcBit ∧ ∀ b : Byte, Function.Bijective fun a => crcByte a b

/-- R72: the table-driven form equals the bit algorithm on all inputs. -/
def Obligations.TableDrivenFormEqualsTheBitAlgorithm : Prop := ∀ (a : Half) (b : Byte), crcByteByTable a b = crcByte a b

/-! The CRC commands -/

/-- R63: CRC.INIT. From every state, UNWRITTEN or in the middle of a message, ACC becomes 0xFFFF. -/
def Obligations.CrcInitStartsANewMessage : Prop :=
  encode .crcInit = 0x0000000000#40 ∧
  (∀ s : State, exec .crcInit s = .next { s with acc := .value 0xFFFF#16, responses := s.responses ++ [.ack] }) ∧
  (∀ s t u : State, exec .crcInit s = .next t → exec .crcInit t = .next u → u.acc = t.acc) ∧
  (∀ (arg : Word) (s : State), arg ≠ 0#32 →
    step (s.offer (.command (0x00#8 ++ arg))) = .next { s with responses := s.responses ++ [.fault .illegal] })

/-- R64: CRC.BYTE, its faults and its corner cases. -/
def Obligations.CrcByteAbsorbsOneByte : Prop :=
  (∀ b : Byte, (encode (.crcByte b)).toNat = 0x0100000000 + b.toNat) ∧
  (∀ (b : Byte) (a : Half) (s : State), s.acc = .value a →
    exec (.crcByte b) s = .next { s with acc := .value (crcByte a b), responses := s.responses ++ [.ack] }) ∧
  (∀ (b : Byte) (s : State), s.acc = .unwritten →
    exec (.crcByte b) s = .next { s with responses := s.responses ++ [.fault .accUninit] }) ∧
  (∀ (arg : Word) (s : State), arg.extractLsb' 8 24 ≠ 0#24 →
    step (s.offer (.command (0x01#8 ++ arg))) = .next { s with responses := s.responses ++ [.fault .illegal] }) ∧
  (∀ a : Half, crcByte a 0x00#8 = 0x0000#16 ↔ a = 0x0000#16) ∧
  (∀ a : Half, crcByte a (lowByte a) = zext16 (highByte a)) ∧
  (∀ (a : Half) (n : Nat), n < 8 → (crcBit^[n] (a ^^^ zext16 (lowByte a))).getLsbD 0 = false) ∧
  crcByte 0xFFFF#16 0x00#8 = 0x40BF#16 ∧ crcByte 0xFFFF#16 0xF8#8 = 0xC2BE#16

/-- R65: CRC.READ returns ACC and leaves it. -/
def Obligations.CrcReadAnswersTheAccumulator : Prop :=
  encode .crcRead = 0x0200000000#40 ∧
  (∀ (a : Half) (s : State), s.acc = .value a →
    exec .crcRead s = .next { s with responses := s.responses ++ [.val16 a] }) ∧
  (∀ s : State, s.acc = .unwritten →
    exec .crcRead s = .next { s with responses := s.responses ++ [.fault .accUninit] }) ∧
  (∀ (arg : Word) (s : State), arg ≠ 0#32 →
    step (s.offer (.command (0x02#8 ++ arg))) = .next { s with responses := s.responses ++ [.fault .illegal] }) ∧
  (∀ s : State, runInstrs [.crcInit, .crcRead] s =
    .next { s with acc := .value 0xFFFF#16, responses := s.responses ++ [.ack, .val16 0xFFFF#16] }) ∧
  (∀ (m rest : List Byte) (s : State), ∃ t, runInstrs (crcMsg m ++ [.crcRead] ++ rest.map .crcByte ++ [.crcRead]) s = .next t ∧
    t.responses = s.responses ++ List.replicate (m.length + 1) .ack ++ [.val16 (computeCrc m)]
      ++ List.replicate rest.length .ack ++ [.val16 (computeCrc (m ++ rest))]) ∧
  sealFrame [0xF8#8, 0x04#8, 0x00#8, 0x00#8, 0x00#8, 0x03#8] =
    [0xF8#8, 0x04#8, 0x00#8, 0x00#8, 0x00#8, 0x03#8, 0xA4#8, 0x62#8]

/-- R66: CRC.CHK compares ACC with the little-endian trailer; a mismatch is `Bit 0`, no fault; swapped operands match only
when the two bytes of the right CRC are equal. -/
def Obligations.CrcChkComparesTheLittleEndianTrailer : Prop :=
  (∀ lo hi : Byte, (encode (.crcChk lo hi)).toNat = 0x0300000000 + hi.toNat * 0x100 + lo.toNat) ∧
  (∀ (lo hi : Byte) (a : Half) (s : State), s.acc = .value a →
    exec (.crcChk lo hi) s =
      .next { s with responses := s.responses ++ [.bit (decide (a.toNat = hi.toNat * 0x100 + lo.toNat))] }) ∧
  (∀ (lo hi : Byte) (s : State), s.acc = .unwritten →
    exec (.crcChk lo hi) s = .next { s with responses := s.responses ++ [.fault .accUninit] }) ∧
  (∀ (arg : Word) (s : State), arg.extractLsb' 16 16 ≠ 0#16 →
    step (s.offer (.command (0x03#8 ++ arg))) = .next { s with responses := s.responses ++ [.fault .illegal] }) ∧
  (∀ (a : Half) (s : State), s.acc = .value a →
    exec (.crcChk (highByte a) (lowByte a)) s =
      .next { s with responses := s.responses ++ [.bit (decide (highByte a = lowByte a))] }) ∧
  (∀ s : State, s.acc = .value 0x7793#16 →
    step (s.offer (.command 0x0300007793#40)) = .next { s with responses := s.responses ++ [.bit true] } ∧
    exec (.crcChk 0x77#8 0x93#8) s = .next { s with responses := s.responses ++ [.bit false] }) ∧
  computeCrc [0xF8#8, 0x04#8, 0x06#8, 0x00#8, 0x01#8, 0x00#8, 0x02#8, 0xFF#8, 0xFF#8] = 0x7793#16

/-- R103: CRC.BYTE, CRC.READ and CRC.CHK, and no other command, answer `Fault AccUninit`, and do so exactly while ACC is
UNWRITTEN; ACC stays UNWRITTEN. -/
def Obligations.AccUninitExactlyWhileUnwritten : Prop :=
  (∀ (i : Instr) (s : State), i = .crcRead ∨ (∃ b, i = .crcByte b) ∨ (∃ lo hi, i = .crcChk lo hi) → s.acc = .unwritten →
    exec i s = .next { s with responses := s.responses ++ [.fault .accUninit] }) ∧
  (∀ (i : Instr) (s t : State) (f : CmdFault), exec i s = .next t → t.responses = s.responses ++ [.fault f] →
    f = .accUninit ∧ s.acc = .unwritten ∧ t.acc = .unwritten ∧
      (i = .crcRead ∨ (∃ b, i = .crcByte b) ∨ (∃ lo hi, i = .crcChk lo hi)))

/-- R67: streaming equals the contract. After CRC.INIT and any words but CRC.INIT (fed bytes, reads, checks, DEC commands,
illegal words), from every state, ACC is the CRC of the fed bytes in order, and CRC.READ answers it. -/
def Obligations.StreamingEqualsTheContract : Prop :=
  ∀ (s : State) (ws : List CmdWord), (∀ w ∈ ws, decode w ≠ .ok .crcInit) →
    ∃ t, runWords (encode .crcInit :: ws) s = .next t ∧ t.acc = .value (computeCrc (ws.filterMap fedByte)) ∧
      exec .crcRead t = .next { t with responses := t.responses ++ [.val16 (computeCrc (ws.filterMap fedByte))] }

/-- R13: in every step, if ACC holds the CRC of the bytes fed since the last CRC.INIT (is UNWRITTEN where no CRC.INIT came
since reset), then so it does after the step. -/
def Obligations.EveryStepKeepsAccTheCrcOfTheBytesFed : Prop :=
  ∀ (s t : State) (fed : Option (List Byte)), AccHolds fed s.acc → step s = .next t →
    AccHolds (fedAfter s.pending.head? fed) t.acc

/-- R13, R24: the invariant above holds at reset, with nothing fed. -/
def Obligations.AccHoldsTheCrcOfTheBytesFedAtReset : Prop := AccHolds none State.reset.acc

/-- R118: a second message fed without CRC.INIT, reads and checks in between, continues the first; CRC.INIT discards an
abandoned one. -/
def Obligations.MessageWithoutInitContinuesTheLast : Prop :=
  ∀ (first second : List Byte) (lo hi : Byte) (s : State),
    (∃ t, runInstrs (crcMsg first ++ [.crcRead, .crcChk lo hi] ++ second.map .crcByte) s = .next t ∧
      t.acc = .value (computeCrc (first ++ second))) ∧
    (∃ t, runInstrs (crcMsg first ++ crcMsg second) s = .next t ∧ t.acc = .value (computeCrc second))

/-- R120: a host that feeds the trailer reads 0x0000, and one that then checks with the trailer too sees a mismatch for every
frame whose CRC is not 0x0000. -/
def Obligations.FedTrailerReadsZeroAndChecksFalse : Prop :=
  ∀ (m : List Byte) (s : State),
    (∃ t, runInstrs (crcMsg (sealFrame m) ++ [.crcRead]) s = .next t ∧ t.responses.getLast? = some (.val16 0x0000#16)) ∧
    (∃ t, runInstrs (crcMsg (sealFrame m) ++ [.crcChk (lowByte (computeCrc m)) (highByte (computeCrc m))]) s = .next t ∧
      t.responses.getLast? = some (.bit (decide (computeCrc m = 0x0000#16))))

/-! The DEC unit -/

/-- R80: the pattern does not depend on the mode; the unsigned value is in 0 .. 2^32 - 1, the signed one in -2^31 .. 2^31 - 1;
they differ exactly when `high[15] = 1`, and then by 2^32. -/
def Obligations.CombinedPatternIsReadInTwoModes : Prop :=
  ∀ high low : Half,
    (pattern high low).extractLsb' 16 16 = high ∧ (pattern high low).extractLsb' 0 16 = low ∧
    combine32 high low false = ((pattern high low).toNat : Int) ∧ combine32 high low true = (pattern high low).toInt ∧
    0 ≤ combine32 high low false ∧ combine32 high low false ≤ 2 ^ 32 - 1 ∧
    -2 ^ 31 ≤ combine32 high low true ∧ combine32 high low true ≤ 2 ^ 31 - 1 ∧
    (combine32 high low false ≠ combine32 high low true ↔ high.getLsbD 15 = true) ∧
    (high.getLsbD 15 = true → combine32 high low false = combine32 high low true + 2 ^ 32)

/-- R81: the two descriptions of the signed mode agree; `low` is read unsigned in both modes. -/
def Obligations.SignedReadingIsSignedHighAboveUnsignedLow : Prop :=
  ∀ high low : Half,
    sint (high ++ low) = sint high * 2 ^ 16 + (uint low : Int) ∧ uint (high ++ low) = uint high * 2 ^ 16 + uint low

/-- R92: the split is the inverse of byte concatenation, and the slices of the pattern are its parts. -/
def Obligations.SplitInvertsConcatenation : Prop :=
  (∀ reg : Half, (split8 reg).1 ++ (split8 reg).2 = reg ∧ uint (split8 reg).1 = uint reg / 256 ∧
    uint (split8 reg).2 = uint reg % 256) ∧
  (∀ hi lo : Byte, split8 (hi ++ lo) = (hi, lo))

/-- R84: DEC.COMBU; every word with opcode 0x10 is legal; never AccUninit, ACC is not touched. -/
def Obligations.CombuAnswersTheUnsignedReading : Prop :=
  (∀ high low : Half, (encode (.decCombu high low)).toNat = 0x1000000000 + high.toNat * 0x10000 + low.toNat) ∧
  (∀ (high low : Half) (s : State), exec (.decCombu high low) s = .next
    { s with responses := s.responses ++ [.val32 (high ++ low) ((high.toNat * 65536 + low.toNat : Nat) : Int)] }) ∧
  (∀ (arg : Word) (s : State), step (s.offer (.command (0x10#8 ++ arg))) = .next
    { s with responses := s.responses ++ [.val32 arg (arg.toNat : Int)] }) ∧
  combine32 0x0000#16 0x0000#16 false = 0 ∧ combine32 0xFFFF#16 0xFFFF#16 false = 4294967295 ∧
  combine32 0x8000#16 0x0000#16 false = 2147483648

/-- R85: DEC.COMBS; every word with opcode 0x11 is legal; a set top bit of `low` never makes the result negative; the pattern
is that of DEC.COMBU. -/
def Obligations.CombsAnswersTheSignedReading : Prop :=
  (∀ high low : Half, (encode (.decCombs high low)).toNat = 0x1100000000 + high.toNat * 0x10000 + low.toNat) ∧
  (∀ (high low : Half) (s : State), exec (.decCombs high low) s = .next
    { s with responses := s.responses ++ [.val32 (high ++ low) (high.toInt * 65536 + (low.toNat : Int))] }) ∧
  (∀ (arg : Word) (s : State), step (s.offer (.command (0x11#8 ++ arg))) = .next
    { s with responses := s.responses ++ [.val32 arg arg.toInt] }) ∧
  (∀ high low : Half, combine32 high low true < 0 ↔ high.getLsbD 15 = true) ∧
  combine32 0x8000#16 0x0000#16 true = -2147483648 ∧ combine32 0x7FFF#16 0xFFFF#16 true = 2147483647 ∧
  combine32 0xFFFF#16 0x0000#16 true = -65536 ∧ combine32 0x0000#16 0xFFFF#16 true = 65535 ∧
  combine32 0x0000#16 0x8000#16 true = 32768 ∧ combine32 0x0001#16 0x0002#16 true = 65538 ∧
  combine32 0xFFFF#16 0xFFFF#16 true = -1

/-- R86: DEC.SPLIT answers the two bytes, the high one first; ACC is neither read nor written. -/
def Obligations.SplitAnswersHighByteThenLowByte : Prop :=
  (∀ reg : Half, (encode (.decSplit reg)).toNat = 0x1200000000 + reg.toNat) ∧
  (∀ (reg : Half) (s : State), exec (.decSplit reg) s = .next
    { s with responses := s.responses ++ [.pair8 (reg.extractLsb' 8 8) (reg.extractLsb' 0 8)] }) ∧
  (∀ (arg : Word) (s : State), arg.extractLsb' 16 16 ≠ 0#16 →
    step (s.offer (.command (0x12#8 ++ arg))) = .next { s with responses := s.responses ++ [.fault .illegal] }) ∧
  [0x0000#16, 0xFFFF#16, 0x00FF#16, 0xFF00#16, 0x6364#16].map split8 =
    [(0x00#8, 0x00#8), (0xFF#8, 0xFF#8), (0x00#8, 0xFF#8), (0xFF#8, 0x00#8), (0x63#8, 0x64#8)]

/-- R87: DEC.SCALE answers the product of the raw value and the selected resolution, for all 16 indexes, under every
configuration, and `exec` gives that answer under the block's, whatever it is; under every admissible configuration (R93) the response is finite, is zero for raw 0, and is 1.0 for raw 100 and the resolution
0.01, and raw is read unsigned. -/
def Obligations.ScaleAnswersTheProductWithTheSelectedResolution : Prop :=
  (∀ (raw : Half) (k : BitVec 4), (encode (.decScale raw k)).toNat = 0x1300000000 + k.toNat * 0x10000 + raw.toNat) ∧
  (∀ (raw : Half) (k : BitVec 4) (s : State), exec (.decScale raw k) s = .next
    { s with responses := s.responses ++
        [.scalar (Config.block.num.mul (Config.block.num.ofNat raw) (Config.block.res ⟨k.toNat, k.isLt⟩))] }) ∧
  (∀ (arg : Word) (s : State), arg.extractLsb' 20 12 ≠ 0#12 →
    step (s.offer (.command (0x13#8 ++ arg))) = .next { s with responses := s.responses ++ [.fault .illegal] }) ∧
  (∀ (c : Config) (a : Acc) (raw : Half) (k : BitVec 4), blockStep c a (encode (.decScale raw k)) =
    (a, .scalar (c.num.mul (c.num.ofNat raw) (c.res ⟨k.toNat, k.isLt⟩)))) ∧
  (∀ (c : Config) (rd : Reading c.num.Scalar) (a : Acc), c.Admissible rd →
    (∀ k, ∃ x, blockStep c a (encode (.decScale 0x0000#16 k)) = (a, .scalar x) ∧ rd.zero x) ∧
    (∀ raw k, ∃ x, blockStep c a (encode (.decScale raw k)) = (a, .scalar x) ∧ rd.finite x) ∧
    rd.represents (c.num.ofNat 0xFFFF#16) 65535 ∧ rd.represents (c.num.ofNat 0x8000#16) 32768 ∧
    (c.res 0 = rd.centi → blockStep c a (encode (.decScale 100#16 0#4)) = (a, .scalar rd.one)))

/-- R88, R23: every DEC command gives one response that is the same in all states, is no fault, and changes nothing else. -/
def Obligations.DecCommandsArePureFunctions : Prop :=
  ∀ i : Instr, i.isDec = true →
    ∃ r : Rsp Config.block.num.Scalar, r.isFault = false ∧ ∀ s : State, exec i s = .next { s with responses := s.responses ++ [r] }

/-- R93: the two example instances, binary32 (general knowledge, log entry 6) and exact arithmetic, have properties P2 to P4,
and they differ: at raw 2305 with the resolution 0.01 the exact one gives 23.05 and binary32 does not. -/
def Obligations.BinaryInstanceIsAdmissibleAndDiffersFromExact : Prop :=
  binary32Num.Admissible binary32Reading ∧
  exactNum.Admissible exactReading ∧
  scale exactNum 2305#16 exactReading.centi = (2305 / 100 : Rat) ∧
  scale binary32Num 2305#16 binary32Reading.centi = 0x41B86666#32 ∧
  value32 0x41B86666#32 = 12084838 / 524288 ∧
  (12084838 / 524288 : Rat) ≠ 2305 / 100

/-- R90 with R55: a power-factor register is split and each byte, widened with zeros, scaled by its own resolution. -/
def Obligations.PowerFactorScalesEachByteByItsOwnResolution : Prop :=
  (∀ (c : Config) (a : Acc) (reg : Half) (kHi kLo : BitVec 4),
    blockRun c a ((.decSplit reg :: pfScale (highByte reg) (lowByte reg) kHi kLo).map encode) =
      (a, [.pair8 (highByte reg) (lowByte reg),
        .scalar (c.num.mul (c.num.ofNat (reg >>> 8)) (c.res kHi.toFin)),
        .scalar (c.num.mul (c.num.ofNat (reg &&& 0x00FF#16)) (c.res kLo.toFin))])) ∧
  ∀ (reg : Half) (kHi kLo : BitVec 4) (s : State),
    runInstrs (.decSplit reg :: pfScale (highByte reg) (lowByte reg) kHi kLo) s = .next
      { s with responses := s.responses ++ [.pair8 (highByte reg) (lowByte reg),
          scaleResponse Config.block (reg >>> 8) kHi, scaleResponse Config.block (reg &&& 0x00FF#16) kLo] }

/-! The machine -/

/-- R53: when the next input is a word that decodes to a command, the step is that command's meaning in the state without the
input; nothing else moves. -/
def Obligations.StepRunsTheDecodedCommand : Prop :=
  (∀ (s : State) (w : CmdWord) (rest : List Input) (i : Instr), s.pending = .command w :: rest → decode w = .ok i →
    step s = exec i { s with pending := rest }) ∧
  (∀ (s : State) (i : Instr), step (s.withFetchWord 40 (encode i).toNat) = exec i s)

/-- R115: the reset event makes ACC UNWRITTEN whatever the state was and gives no response. -/
def Obligations.ResetEventLeavesAccUnwritten : Prop :=
  ∀ s : State, step (s.offer .reset) = .next { s with acc := .unwritten }

/-- R24, R117: after reset ACC is UNWRITTEN and no 16-bit value; the DEC unit works at once; CRC.BYTE, CRC.READ and CRC.CHK
are answered `Fault AccUninit` and change nothing, and work after CRC.INIT. -/
def Obligations.ResetStateNeedsInitForTheCrcUnitOnly : Prop :=
  State.reset.acc = .unwritten ∧ (∀ v : Half, State.reset.acc ≠ .value v) ∧
  (∀ i : Instr, i.isDec = true → ∃ t r, exec i State.reset = .next t ∧ t.responses = [r] ∧ r.isFault = false) ∧
  (∀ (b lo hi : Byte) (i : Instr), i ∈ [.crcByte b, .crcRead, .crcChk lo hi] →
    exec i State.reset = .next { State.reset with responses := [.fault .accUninit] }) ∧
  (∀ b : Byte, runInstrs [.crcInit, .crcByte b] State.reset =
    .next { State.reset with acc := .value (crcByte 0xFFFF#16 b), responses := [.ack, .ack] }) ∧
  runInstrs [.crcInit, .crcRead] State.reset =
    .next { State.reset with acc := .value 0xFFFF#16, responses := [.ack, .val16 0xFFFF#16] } ∧
  (∀ lo hi : Byte, runInstrs [.crcInit, .crcChk lo hi] State.reset =
    .next { State.reset with acc := .value 0xFFFF#16, responses := [.ack, .bit (decide (0xFFFF#16 = hi ++ lo))] })

/-- R3, R126: `step` answers a next state in every state, and takes exactly the next input. -/
def Obligations.StepAlwaysAnswersANextState : Prop :=
  ∀ s : State, ∃ t, step s = .next t ∧ t.pending = s.pending.tail

/-- R126, R101: every finite run of command words ends, with one response per command, and leaves later inputs alone. -/
def Obligations.EveryRunEndsWithOneResponsePerCommand : Prop :=
  ∀ (ws : List CmdWord) (s : State), ∃ t rs, runWords ws s = .next t ∧ t.pending = s.pending ∧
    t.responses = s.responses ++ rs ∧ rs.length = ws.length

/-- R101: every command word is answered by exactly one response; a word that decodes by the kind listed for its command or a
fault; a word that does not by `Fault Illegal`; the codes are 1 and 2. -/
def Obligations.EveryCommandAnswersOnceWithItsKind : Prop :=
  (∀ (w : CmdWord) (s : State), ∃ t r, step (s.offer (.command w)) = .next t ∧ t.responses = s.responses ++ [r] ∧
    ((∃ i, decode w = .ok i ∧ (i.ofKind r ∨ r = .fault .accUninit)) ∨ ((∀ i, decode w ≠ .ok i) ∧ r = .fault .illegal))) ∧
  (∀ (i : Instr) (s : State), ∃ t r, exec i s = .next t ∧ t.responses = s.responses ++ [r] ∧
    (i.ofKind r ∨ r = .fault .accUninit)) ∧
  CmdFault.code .illegal = 1 ∧ CmdFault.code .accUninit = 2

/-- R14: the frame of every command. CRC.INIT and CRC.BYTE are the only writers of ACC; a command that faults does not change
it; CRC.INIT and the DEC commands do not read it; earlier responses and later inputs stay. -/
def Obligations.OnlyInitAndByteWriteTheAccumulator : Prop :=
  (∀ (i : Instr) (s t : State), exec i s = .next t →
    ((i ≠ .crcInit ∧ ∀ b, i ≠ .crcByte b) → t.acc = s.acc) ∧
    (∀ f, t.responses = s.responses ++ [.fault f] → t.acc = s.acc) ∧
    t.pending = s.pending ∧ ∃ r, t.responses = s.responses ++ [r]) ∧
  (∀ i : Instr, i = .crcInit ∨ i.isDec = true → ∃ r, ∀ s : State, ∃ t, exec i s = .next t ∧
    t.responses = s.responses ++ [r])

/-- R106: a command answered by a fault leaves ACC, and the next input is handled as if it had never been issued. -/
def Obligations.FaultingCommandLeavesNoTrace : Prop :=
  ∀ (w : CmdWord) (x : Input) (s t : State) (f : CmdFault), step (s.offer (.command w)) = .next t →
    t.responses = s.responses ++ [.fault f] →
    t.acc = s.acc ∧ t.pending = s.pending ∧
    ∃ a rs, step (t.offer x) = .next { t with acc := a, responses := t.responses ++ rs } ∧
      step (s.offer x) = .next { s with acc := a, responses := s.responses ++ rs }

/-- R68, R100, R126: after CRC.INIT no command faults, whatever the commands and their operands, so the run is clean. -/
def Obligations.RunOfCommandsAfterInitIsClean : Prop :=
  ∀ (is : List Instr) (s : State), s.clean = true → ∃ t, runInstrs (.crcInit :: is) s = .next t ∧ t.clean = true

/-- R22: no hidden state. The response and the next ACC of a command word depend on the word and ACC only, and for a DEC
command on the word only. -/
def Obligations.ResponseDependsOnWordAndAccumulatorOnly : Prop :=
  (∀ (w : CmdWord) (a : Acc), ∃ a' r, ∀ s : State, s.acc = a →
    step (s.offer (.command w)) = .next { s with acc := a', responses := s.responses ++ [r] }) ∧
  (∀ (w : CmdWord) (i : Instr), decode w = .ok i → i.isDec = true → ∃ r, ∀ s : State,
    step (s.offer (.command w)) = .next { s with responses := s.responses ++ [r] })

/-- R101: in every recorded `Val32 p n` the integer is a reading of the pattern, and every step keeps this. -/
def Obligations.EveryStepKeepsResponsesWellFormed : Prop :=
  ∀ s t : State, s.ResponsesWellFormed → step s = .next t → t.ResponsesWellFormed

/-- The invariant above holds at reset. That no response is recorded there is the model's choice (log entry 2). -/
def Obligations.ResponsesWellFormedAtReset : Prop := State.reset.ResponsesWellFormed

/-- R41: CRC.READ, CRC.CHK and the DEC commands, issued twice, answer the same twice and leave the state; CRC.INIT twice is as
once; CRC.BYTE is not idempotent. -/
def Obligations.ReadingCommandsAreIdempotent : Prop :=
  (∀ i : Instr, (i ≠ .crcInit ∧ ∀ b, i ≠ .crcByte b) → ∀ s : State, ∃ r,
    exec i s = .next { s with responses := s.responses ++ [r] } ∧
    runInstrs [i, i] s = .next { s with responses := s.responses ++ [r, r] }) ∧
  (∀ s : State, ∃ t u, runInstrs [.crcInit] s = .next t ∧ runInstrs [.crcInit, .crcInit] s = .next u ∧ t.acc = u.acc) ∧
  (∃ (b : Byte) (s t u : State), runInstrs [.crcByte b] s = .next t ∧ runInstrs [.crcByte b, .crcByte b] s = .next u ∧
    t.acc ≠ u.acc)

/-- R14, R110, R115: only CRC.INIT brings ACC out of UNWRITTEN, and only the reset event brings it back. -/
def Obligations.OnlyInitEndsUnwrittenOnlyResetBringsItBack : Prop :=
  ∀ s t : State, step s = .next t →
    (s.acc = .unwritten → t.acc ≠ .unwritten →
      ∃ w, s.pending.head? = some (.command w) ∧ decode w = .ok .crcInit ∧ t.acc = .value 0xFFFF#16) ∧
    (s.acc ≠ .unwritten → t.acc = .unwritten → s.pending.head? = some .reset)

/-- R3, R126: the host's run of the machine over its pending inputs is the fold of the step over them, and the inputs that
follow stay. That inputs wait in the state is the model's choice (log entry 1). -/
def Obligations.RunOverPendingInputsIsTheFold : Prop :=
  ∀ (xs rest : List Input) (s : State),
    Host.Core.run core xs.length ({ s with pending := xs ++ rest } : State) = runInputs xs { s with pending := rest }

/-! Frames -/

/-- R36: `check` compares the CRC of all but the last two bytes with the little-endian trailer; it accepts every sealed
frame; it is undefined below two bytes. -/
def Obligations.CheckComparesTheTrailer : Prop :=
  (∀ (m : List Byte) (t0 t1 : Byte), check (m ++ [t0, t1]) = some (decide (computeCrc m = t1 ++ t0))) ∧
  (∀ m : List Byte, check (sealFrame m) = some true) ∧
  (∀ f : List Byte, f.length < 2 → check f = none)

/-- R27, R35: the request frame, byte by byte. -/
def Obligations.RequestFrameLayout : Prop :=
  ∀ (address : Byte) (startReg count : Half),
    request address startReg count =
      [address, 0x04#8, startReg.extractLsb' 8 8, startReg.extractLsb' 0 8, count.extractLsb' 8 8, count.extractLsb' 0 8,
        (computeCrc ((request address startReg count).take 6)).extractLsb' 0 8,
        (computeCrc ((request address startReg count).take 6)).extractLsb' 8 8] ∧
    check (request address startReg count) = some true

/-- R28, R32, R37, R38, R43: the response frame. Its length, 5 to 131075 bytes for a 16-bit count, the place of every register value, the trailer; the values are read
back in request order; whatever the address, function and byte-count bytes hold, the frame passes the check. -/
def Obligations.ResponseFrameLayoutAndExtraction : Prop :=
  ∀ (address function byteCount : Byte) (values : List Half),
    (response address function byteCount values).length = 3 + values.length * 2 + 2 ∧
    (∀ count : Half, values.length = count.toNat →
      (response address function byteCount values).length = responseLength count ∧
      5 ≤ responseLength count ∧ responseLength count ≤ 131075) ∧
    (response address function byteCount values).take 3 = [address, function, byteCount] ∧
    (∀ (i : Nat) (v : Half), values[i]? = some v →
      byteAt (response address function byteCount values) (3 + 2 * i) = v.extractLsb' 8 8 ∧
      byteAt (response address function byteCount values) (4 + 2 * i) = v.extractLsb' 0 8) ∧
    (let c := computeCrc ((response address function byteCount values).take (3 + 2 * values.length))
     byteAt (response address function byteCount values) (3 + 2 * values.length) = c.extractLsb' 0 8 ∧
     byteAt (response address function byteCount values) (4 + 2 * values.length) = c.extractLsb' 8 8) ∧
    regs (response address function byteCount values) values.length = some values ∧
    check (response address function byteCount values) = some true

/-- R73: the command sequence that builds a frame's CRC answers it last, and the one that validates a frame answers `check`
of the frame last, from every state. -/
def Obligations.BuildAndValidateSequencesAnswerSealAndCheck : Prop :=
  (∀ (m : List Byte) (s : State), ∃ t c, runInstrs (buildCommands m) s = .next t ∧
    t.responses.getLast? = some (.val16 c) ∧ sealFrame m = m ++ [c.extractLsb' 0 8, c.extractLsb' 8 8]) ∧
  (∀ (f : List Byte) (s : State), 2 ≤ f.length → ∃ is t b, validateCommands f = some is ∧ runInstrs is s = .next t ∧
    t.responses.getLast? = some (.bit b) ∧ check f = some b)

/-! The block under every configuration -/

/-- R3, R53, R101: under every configuration, from every value of ACC, a command word leaves the ACC and gives the response of
its command's rule (R63 to R66, R84 to R87), and a word that is no command leaves ACC and gives `Fault Illegal`. -/
def Obligations.BlockStepFollowsTheRulesUnderEveryConfiguration : Prop :=
  ∀ c : Config,
    (∀ a : Acc, blockStep c a (encode .crcInit) = (.value 0xFFFF#16, .ack)) ∧
    (∀ (v : Half) (b : Byte), blockStep c (.value v) (encode (.crcByte b)) = (.value (crcByte v b), .ack)) ∧
    (∀ v : Half, blockStep c (.value v) (encode .crcRead) = (.value v, .val16 v)) ∧
    (∀ (v : Half) (lo hi : Byte), blockStep c (.value v) (encode (.crcChk lo hi)) = (.value v, .bit (decide (v = hi ++ lo)))) ∧
    (∀ (b lo hi : Byte) (i : Instr), i ∈ [.crcByte b, .crcRead, .crcChk lo hi] →
      blockStep c .unwritten (encode i) = (.unwritten, .fault .accUninit)) ∧
    (∀ (a : Acc) (high low : Half), blockStep c a (encode (.decCombu high low)) =
      (a, .val32 (high ++ low) (uint (high ++ low) : Int))) ∧
    (∀ (a : Acc) (high low : Half), blockStep c a (encode (.decCombs high low)) =
      (a, .val32 (high ++ low) (sint (high ++ low)))) ∧
    (∀ (a : Acc) (reg : Half), blockStep c a (encode (.decSplit reg)) =
      (a, .pair8 (reg.extractLsb' 8 8) (reg.extractLsb' 0 8))) ∧
    (∀ (a : Acc) (raw : Half) (k : BitVec 4), blockStep c a (encode (.decScale raw k)) =
      (a, .scalar (c.num.mul (c.num.ofNat raw) (c.res k.toFin)))) ∧
    (∀ (a : Acc) (w : CmdWord), (∀ i, decode w ≠ .ok i) → blockStep c a w = (a, .fault .illegal))

/-- R3: the machine of the host's interface is the block under its own configuration: a step over a command word is
`blockStep`, a run of words is `blockRun`, and the scalars among the responses are those of that configuration. -/
def Obligations.MachineIsTheBlockUnderItsConfiguration : Prop :=
  (∀ (w : CmdWord) (s : State), step (s.offer (.command w)) = .next
    { s with acc := (blockStep Config.block s.acc w).1, responses := s.responses ++ [(blockStep Config.block s.acc w).2] }) ∧
  (∀ (ws : List CmdWord) (s : State), runWords ws s = .next
    { s with acc := (blockRun Config.block s.acc ws).1, responses := s.responses ++ (blockRun Config.block s.acc ws).2 })

/-- R3, R126: under every configuration a run is the left fold of the step, with one response per command. -/
def Obligations.RunIsTheFoldOfTheBlockStep : Prop :=
  ∀ (c : Config) (a : Acc),
    blockRun c a [] = (a, []) ∧
    (∀ (ws : List CmdWord) (w : CmdWord), blockRun c a (ws ++ [w]) =
      ((blockStep c (blockRun c a ws).1 w).1, (blockRun c a ws).2 ++ [(blockStep c (blockRun c a ws).1 w).2])) ∧
    (∀ ws : List CmdWord, (blockRun c a ws).2.length = ws.length ∧
      (blockRun c a ws).1 = ws.foldl (fun x w => (blockStep c x w).1) a)

/-- R3, R22: the configuration enters a run only through the products `NUM.mul(NUM.ofNat raw, RES[k])`. Where a function takes
each product under one configuration to the same product under another, it takes every run under the one to the run under the
other. -/
def Obligations.ConfigurationEntersOnlyThroughTheProducts : Prop :=
  ∀ (c d : Config) (f : c.num.Scalar → d.num.Scalar),
    (∀ raw k, f (c.num.mul (c.num.ofNat raw) (c.res k)) = d.num.mul (d.num.ofNat raw) (d.res k)) →
    ∀ (a : Acc) (ws : List CmdWord),
      blockRun d a ws = ((blockRun c a ws).1, (blockRun c a ws).2.map (Rsp.map f))
end

