-- ==== Sys2Proof/Laws/Decode.lean ====
section
/-! SUPPORT. The fields of a word put together from its fields. -/

namespace Sys2Proof

/-- The upper slice of a concatenation is its upper part. -/
theorem extract_append_high {m n : Nat} (x : BitVec m) (y : BitVec n) : (x ++ y).extractLsb' n m = x := by
  ext i hi
  simp [BitVec.getLsbD_append, BitVec.getLsbD_eq_getElem hi]

/-- The lower slice of a concatenation is its lower part. -/
theorem extract_append_low {m n : Nat} (x : BitVec m) (y : BitVec n) : (x ++ y).extractLsb' 0 n = y := by
  ext i hi
  simp [BitVec.getLsbD_append, hi]

/-- The lowest of three parts. -/
theorem extract_append_lowest {m n p : Nat} (x : BitVec m) (y : BitVec n) (z : BitVec p) :
    (x ++ (y ++ z)).extractLsb' 0 p = z := by
  ext i hi
  simp [BitVec.getLsbD_append, BitVec.getElem_append, hi, Nat.lt_add_left n hi]

/-- The middle one of three parts. -/
theorem extract_append_middle {m n p : Nat} (x : BitVec m) (y : BitVec n) (z : BitVec p) :
    (x ++ (y ++ z)).extractLsb' p n = y := by
  ext i hi
  have h : p + i < n + p := by omega
  simp [BitVec.getLsbD_append, BitVec.getElem_append, h]

@[simp] theorem opField_append (op : Byte) (arg : Word) : opField (op ++ arg) = op := extract_append_high op arg

@[simp] theorem argField_append (op : Byte) (arg : Word) : argField (op ++ arg) = arg := extract_append_low op arg

/-- A word is its opcode above its operand field. -/
theorem opField_append_argField (w : CmdWord) : opField w ++ argField w = w := by
  ext i hi
  simp only [opField, argField, BitVec.getElem_append, BitVec.getElem_extractLsb']
  split <;> simp <;> grind

theorem opField_encode (i : Instr) : opField (encode i) = i.opcode.row.op := by simp [encode]

theorem argField_encode (i : Instr) : argField (encode i) = encodeArg i := by simp [encode]

/-- The opcode map is read back by the second step of the decode procedure. -/
theorem opcodeOf_row (o : Opcode) : opcodeOf o.row.op = some o := by cases o <;> rfl

/-- An opcode found is the one whose row has the field. -/
theorem row_op_of_opcodeOf {op : Byte} {o : Opcode} (h : opcodeOf op = some o) : o.row.op = op := by
  unfold opcodeOf at h
  repeat' split at h
  all_goals first
    | (injection h with h; subst h; subst_vars; rfl)
    | cases h

end Sys2Proof
end

