-- ==== Sys2Proof/Laws/Instances.lean ====
section
/-! SUPPORT. The fields of a binary32 pattern, read off its number. -/

namespace Sys2Proof.Machine

theorem exponent32_eq (p : Word) : exponent32 p = p.toNat / 8388608 % 256 := by
  simp only [exponent32, BitVec.extractLsb'_toNat, Nat.shiftRight_eq_div_pow]

theorem fraction32_eq (p : Word) : fraction32 p = p.toNat % 8388608 := by
  simp only [fraction32, BitVec.extractLsb'_toNat, Nat.shiftRight_zero]

theorem msb_of_lt {p : Word} (h : p.toNat < 2147483648) : p.msb = false := by
  rw [BitVec.msb_eq_decide]
  exact decide_eq_false (by norm_num; omega)

/-- A positive finite pattern put together from its fields has these fields. -/
theorem fields32_ofNat {e f : Nat} (he : e < 255) (hf : f < 8388608) :
    exponent32 (BitVec.ofNat 32 (e * 8388608 + f)) = e ∧ fraction32 (BitVec.ofNat 32 (e * 8388608 + f)) = f ∧
    (BitVec.ofNat 32 (e * 8388608 + f)).msb = false := by
  have h : (BitVec.ofNat 32 (e * 8388608 + f)).toNat = e * 8388608 + f := by
    rw [BitVec.toNat_ofNat]
    exact Nat.mod_eq_of_lt (by omega)
  refine ⟨?_, ?_, msb_of_lt ?_⟩ <;> simp only [exponent32_eq, fraction32_eq, h] <;> omega

@[simp] theorem isZero32_sign32 (negative : Bool) : isZero32 (sign32 negative 0) = true := by cases negative <;> decide

end Sys2Proof.Machine
end

