-- ==== Sys2Proof/Laws/State.lean ====
section
/-! SUPPORT. One lemma per field per update of State. -/

namespace Sys2Proof.Machine

@[simp] theorem State.offer_acc (x : Input) (s : State) : (s.offer x).acc = s.acc := rfl
@[simp] theorem State.offer_pending (x : Input) (s : State) : (s.offer x).pending = x :: s.pending := rfl
@[simp] theorem State.offer_responses (x : Input) (s : State) : (s.offer x).responses = s.responses := rfl

@[simp] theorem State.reset_acc : State.reset.acc = .unwritten := rfl
@[simp] theorem State.reset_pending : State.reset.pending = [] := rfl
@[simp] theorem State.reset_responses : State.reset.responses = [] := rfl

end Sys2Proof.Machine
end

