-- ==== Sys2Proof/Laws/Ops.lean ====
section
/-! SUPPORT. What each shared operation can do, said once. -/

namespace Sys2Proof.Machine

/-- A response leaves ACC. -/
@[simp] theorem respond_eq {S : Type} (r : Rsp S) (a : Acc) : respond r a = (a, r) := rfl

/-- A fault is a response and leaves ACC. -/
@[simp] theorem raiseFault_eq {S : Type} (f : CmdFault) (a : Acc) : (raiseFault f a : Acc × Rsp S) = (a, .fault f) := rfl

@[simp] theorem withAcc_value {S : Type} (v : Half) (k : Half → Acc × Rsp S) : withAcc k (.value v) = k v := rfl

@[simp] theorem withAcc_unwritten {S : Type} (k : Half → Acc × Rsp S) :
    withAcc k .unwritten = (.unwritten, .fault .accUninit) := rfl

/-- A rule changes ACC and appends its response; nothing else changes. -/
theorem perform_eq (rule : Acc → Acc × Rsp Config.block.num.Scalar) (s : State) :
    perform rule s = .next { s with acc := (rule s.acc).1, responses := s.responses ++ [(rule s.acc).2] } := rfl

@[simp] theorem Rsp.map_ack {S T : Type} (f : S → T) : Rsp.map f .ack = .ack := rfl
@[simp] theorem Rsp.map_val16 {S T : Type} (f : S → T) (v : Half) : Rsp.map f (.val16 v) = .val16 v := rfl
@[simp] theorem Rsp.map_bit {S T : Type} (f : S → T) (m : Bool) : Rsp.map f (.bit m) = .bit m := rfl
@[simp] theorem Rsp.map_val32 {S T : Type} (f : S → T) (p : Word) (n : Int) : Rsp.map f (.val32 p n) = .val32 p n := rfl
@[simp] theorem Rsp.map_pair8 {S T : Type} (f : S → T) (hi lo : Byte) : Rsp.map f (.pair8 hi lo) = .pair8 hi lo := rfl
@[simp] theorem Rsp.map_scalar {S T : Type} (f : S → T) (x : S) : Rsp.map f (.scalar x) = .scalar (f x) := rfl
@[simp] theorem Rsp.map_fault {S T : Type} (f : S → T) (e : CmdFault) : Rsp.map f (.fault e) = .fault e := rfl

/-- What DEC.SCALE answers under any configuration (R87). -/
theorem scaleResponse_eq (c : Config) (raw : Half) (k : BitVec 4) :
    scaleResponse c raw k = .scalar (c.num.mul (c.num.ofNat raw) (c.res k.toFin)) := rfl

theorem takeInput_offer (x : Input) (s : State) : takeInput (s.offer x) = some (x, s) := rfl

theorem takeInput_none {s : State} (h : s.pending = []) : takeInput s = none := by simp [takeInput, h]

theorem takeInput_cons {s : State} {x : Input} {rest : List Input} (h : s.pending = x :: rest) :
    takeInput s = some (x, { s with pending := rest }) := by simp [takeInput, h]

theorem resetEvent_eq (s : State) : resetEvent s = .next { s with acc := .unwritten } := rfl

/-- What `exec` can do, said once: it takes the command's rule under the configuration of the block. -/
theorem exec_eq_perform (i : Instr) (s : State) : exec i s = perform (commandRule Config.block i) s := by cases i <;> rfl

/-- The inversion lemma of `exec`: for a value of ACC and a command there are the ACC it leaves and the response it gives,
whatever is pending and was answered before. -/
theorem exec_shape (i : Instr) (a : Acc) : ∃ a' r, ∀ s : State, s.acc = a →
    exec i s = .next { acc := a', pending := s.pending, responses := s.responses ++ [r] } :=
  ⟨_, _, fun s h => by rw [exec_eq_perform, perform_eq, h]⟩

end Sys2Proof.Machine
end

