-- ==== Sys2Proof/Laws/PerInstr.lean ====
section
/-! SUPPORT. Families of statements about every command as syntax, one lemma per constructor. TableRow: the word of a command
matches its row of the opcode map (spec/30_encoding.md R47). -/

namespace Sys2Proof.Laws.TableRow

/-- The encoded word, masked, is the row's match. -/
def Statement (i : Instr) : Prop := encode i &&& i.opcode.row.mask = i.opcode.row.pattern

/-- A word with the row's opcode whose reserved operand bits are zero matches a row whose mask is all opcode bits and the
reserved bits. -/
theorem append_and (op : Byte) (arg m : Word) (h : arg &&& m = 0#32) :
    (op ++ arg) &&& (0xFF#8 ++ m) = op ++ 0#32 := by
  rw [BitVec.and_append, h]
  congr 1
  exact BitVec.and_allOnes (x := op)

theorem crcInit : Statement .crcInit := by unfold Statement; decide
theorem crcByte (b : Byte) : Statement (.crcByte b) :=
  append_and 0x01#8 (0#24 ++ b) 0xFFFFFF00#32 (by
    rw [show (0xFFFFFF00#32) = 0xFFFFFF#24 ++ 0#8 from rfl, BitVec.and_append]; simp)
theorem crcRead : Statement .crcRead := by unfold Statement; decide
theorem crcChk (lo hi : Byte) : Statement (.crcChk lo hi) :=
  append_and 0x03#8 (0#16 ++ (hi ++ lo)) 0xFFFF0000#32 (by
    rw [show (0xFFFF0000#32) = 0xFFFF#16 ++ 0#16 from rfl, BitVec.and_append]; simp)
theorem decCombu (high low : Half) : Statement (.decCombu high low) :=
  append_and 0x10#8 (high ++ low) 0#32 (by simp)
theorem decCombs (high low : Half) : Statement (.decCombs high low) :=
  append_and 0x11#8 (high ++ low) 0#32 (by simp)
theorem decSplit (reg : Half) : Statement (.decSplit reg) :=
  append_and 0x12#8 (0#16 ++ reg) 0xFFFF0000#32 (by
    rw [show (0xFFFF0000#32) = 0xFFFF#16 ++ 0#16 from rfl, BitVec.and_append]; simp)
theorem decScale (raw : Half) (k : BitVec 4) : Statement (.decScale raw k) :=
  append_and 0x13#8 (0#12 ++ (k ++ raw)) 0xFFF00000#32 (by
    rw [show (0xFFF00000#32) = 0xFFF#12 ++ 0#20 from rfl, BitVec.and_append]; simp)

end Sys2Proof.Laws.TableRow
end

