-- ==== Sys2Proof/Laws/Step.lean ====
section
/-! SUPPORT. What executing a word and one step can do, said once. -/

namespace Sys2Proof.Machine

theorem execute_ok {w : CmdWord} {i : Instr} (h : decode w = .ok i) (s : State) : execute w s = exec i s := by
  simp [execute, h]

theorem execute_error {w : CmdWord} {e : DecodeError} (h : decode w = .error e) (s : State) :
    execute w s = .next { s with responses := s.responses ++ [.fault .illegal] } := by
  simp [execute, h, perform_eq]

theorem blockStep_ok {w : CmdWord} {i : Instr} (h : decode w = .ok i) (c : Config) (a : Acc) :
    blockStep c a w = commandRule c i a := by simp [blockStep, h]

theorem blockStep_error {w : CmdWord} {e : DecodeError} (h : decode w = .error e) (c : Config) (a : Acc) :
    blockStep c a w = (a, .fault .illegal) := by simp [blockStep, h]

theorem step_idle {s : State} (h : s.pending = []) : step s = .next s := by simp [step, takeInput_none h]

theorem step_offer_reset (s : State) : step (s.offer .reset) = resetEvent s := rfl

theorem step_offer_command (w : CmdWord) (s : State) : step (s.offer (.command w)) = execute w s := rfl

/-- Every state with an input pending is the state without it, offered that input. -/
theorem eq_offer {s : State} {x : Input} {rest : List Input} (h : s.pending = x :: rest) :
    s = State.offer x { s with pending := rest } := by
  cases s; simp_all [State.offer]

theorem runInputs_cons {s t : State} {x : Input} (h : step (s.offer x) = .next t) (xs : List Input) :
    runInputs (x :: xs) s = runInputs xs t := by simp [runInputs, h]

/-- One step of the host's run. -/
theorem core_run_succ {s t : State} (h : step s = .next t) (n : Nat) :
    Host.Core.run Sys2Proof.core (n + 1) s = Host.Core.run Sys2Proof.core n t := by
  have e : ∀ (M : Host.Core) (a b : M.State), M.step a = .next b → M.run (n + 1) a = M.run n b := by
    intro M a b hab
    simp [Host.Core.run, hab]
  exact e Sys2Proof.core s t h

end Sys2Proof.Machine
end

