-- ==== Sys2Proof/Tests/Slice0.lean ====
section
/-! SUPPORT. Tests of one step or one function, with expected values from spec/ (95_test_vectors.md and the rules' examples),
and, for every obligation with hypotheses, a witness that meets them. -/

namespace Sys2Proof.Tests

open Sys2Proof.Machine

/-- A state with the given ACC, nothing pending, nothing answered. -/
def st (a : Acc) : State := { acc := a, pending := [], responses := [] }

/-- ACC and the responses after one command word given in a state with the given ACC. -/
def after (a : Acc) (w : CmdWord) : Option (Acc × List (Rsp Config.block.num.Scalar)) :=
  match step ((st a).offer (.command w)) with
  | .next t => some (t.acc, t.responses)
  | .fault _ => none
  | .refused _ => none

/-! Decoding: words written out from spec/30_encoding.md R46 and R47. -/

/-- op 0x00, format Z. -/
theorem test_decode_crcInit : decode 0x0000000000#40 = .ok .crcInit := by decide
/-- op 0x01, b = 0xF8 in bits 7..0. -/
theorem test_decode_crcByte : decode 0x01000000F8#40 = .ok (.crcByte 0xF8#8) := by decide
/-- op 0x02, format Z. -/
theorem test_decode_crcRead : decode 0x0200000000#40 = .ok .crcRead := by decide
/-- op 0x03, hi = 0x77 in bits 15..8, lo = 0x93 in bits 7..0. -/
theorem test_decode_crcChk : decode 0x0300007793#40 = .ok (.crcChk 0x93#8 0x77#8) := by decide
/-- op 0x10, high in bits 31..16, low in bits 15..0. -/
theorem test_decode_decCombu : decode 0x1000010002#40 = .ok (.decCombu 0x0001#16 0x0002#16) := by decide
/-- op 0x11. -/
theorem test_decode_decCombs : decode 0x11FFFE1DC0#40 = .ok (.decCombs 0xFFFE#16 0x1DC0#16) := by decide
/-- op 0x12, reg in bits 15..0. -/
theorem test_decode_decSplit : decode 0x1200006364#40 = .ok (.decSplit 0x6364#16) := by decide
/-- op 0x13, k in bits 19..16, raw in bits 15..0 (V34). -/
theorem test_decode_decScale : decode 0x1300010064#40 = .ok (.decScale 0x0064#16 1#4) := by decide

/-- V19, the illegal words. -/
theorem test_decode_illegal_words :
    [0x0000000001, 0x0100000100, 0x0180000000, 0x0200000001, 0x0300010000, 0x0400000000, 0x0F00000000, 0x1200010000,
      0x1300100000, 0x1400000000, 0xFFFFFFFFFF].all (fun w => (decodeTableWord 40 w).isNone) = true := by decide

/-- V19, the nearest legal words. -/
theorem test_decode_nearest_legal_words :
    [0x0000000000, 0x0100000000, 0x01000000FF, 0x0200000000, 0x030000FFFF, 0x0300000000, 0x1000000000, 0x120000FFFF,
      0x13000FFFFF, 0x1300000000, 0x11FFFFFFFF].map (decodeTableWord 40) =
    [some .crcInit, some (.crcByte 0x00#8), some (.crcByte 0xFF#8), some .crcRead, some (.crcChk 0xFF#8 0xFF#8),
      some (.crcChk 0x00#8 0x00#8), some (.decCombu 0#16 0#16), some (.decSplit 0xFFFF#16), some (.decScale 0xFFFF#16 15#4),
      some (.decScale 0#16 0#4), some (.decCombs 0xFFFF#16 0xFFFF#16)] := by decide

/-! Well-formedness: an ill-formed line for each check (R54), beside the largest well-formed operand. -/

theorem test_wf_crcByte : (AsmLine.crcByte 0x100).wellFormed = false ∧ (AsmLine.crcByte 0xFF).wellFormed = true := by decide
theorem test_wf_crcChk : (AsmLine.crcChk 0x100 0).wellFormed = false ∧ (AsmLine.crcChk 0 0x100).wellFormed = false := by decide
theorem test_wf_decCombu :
    (AsmLine.decCombu 0x10000 0).wellFormed = false ∧ (AsmLine.decCombu 0 0x10000).wellFormed = false := by decide
theorem test_wf_decCombs :
    (AsmLine.decCombs 0x10000 0).wellFormed = false ∧ (AsmLine.decCombs 0 0x10000).wellFormed = false := by decide
theorem test_wf_decSplit :
    (AsmLine.decSplit 0x10000).wellFormed = false ∧ (AsmLine.decSplit 0xFFFF).wellFormed = true := by decide
theorem test_wf_decScale :
    (AsmLine.decScale 0x10000 0).wellFormed = false ∧ (AsmLine.decScale 0 16).wellFormed = false ∧
    (AsmLine.decScale 0xFFFF 15).wellFormed = true := by decide
theorem test_wf_pseudo :
    (AsmLine.crcMsg [0, 0x100]).wellFormed = false ∧ (AsmLine.crcHalf 0x10000).wellFormed = false ∧
    (AsmLine.crcReq 0x100 0 0).wellFormed = false ∧ (AsmLine.crcReq 0 0x10000 0).wellFormed = false ∧
    (AsmLine.crcReq 0 0 0x10000).wellFormed = false ∧ (AsmLine.decComb 0x10000 0 0).wellFormed = false ∧
    (AsmLine.decComb 0 0x10000 0).wellFormed = false ∧ (AsmLine.decComb 0 0 2).wellFormed = false := by decide

/-- PG1: the words of CRC.REQ 0xF8, 0x0000, 3. -/
theorem test_assemble_crcReq : assemble (.crcReq 0xF8 0x0000 3) =
    some [0x0000000000#40, 0x01000000F8#40, 0x0100000004#40, 0x0100000000#40, 0x0100000000#40, 0x0100000000#40,
      0x0100000003#40, 0x0200000000#40] := by decide

/-- R55: DEC.COMB with sg = 1 is DEC.COMBS, with sg = 0 DEC.COMBU. -/
theorem test_assemble_decComb : assemble (.decComb 1 2 1) = some [0x1100010002#40] ∧
    assemble (.decComb 1 2 0) = some [0x1000010002#40] := by decide

/-! CRC functions. -/

/-- V1. -/
theorem test_crcBit : [0x0000#16, 0x0001#16, 0x0002#16, 0x0003#16, 0x8000#16, 0xA000#16, 0xA001#16, 0xFFFF#16].map crcBit =
    [0x0000#16, 0xA001#16, 0x0001#16, 0xA000#16, 0x4000#16, 0x5000#16, 0xF001#16, 0xDFFE#16] := by decide

/-- V2, rows not in the rules' examples. -/
theorem test_crcByte_function :
    crcByte 0x1234#16 0x00#8 = 0xD713#16 ∧ crcByte 0xFF00#16 0x00#8 = 0x00FF#16 ∧ crcByte 0x00FF#16 0xFF#8 = 0x0000#16 := by
  decide

/-- V13: ASCII 123456789. -/
theorem test_computeCrc_check_value :
    computeCrc [0x31#8, 0x32#8, 0x33#8, 0x34#8, 0x35#8, 0x36#8, 0x37#8, 0x38#8, 0x39#8] = 0x4B37#16 := by decide +kernel

/-- V3 to V6. -/
theorem test_computeCrc_short :
    [[], [0x00#8], [0xFF#8], [0x01#8], [0x80#8], [0x00#8, 0x00#8], [0xFF#8, 0xFF#8]].map computeCrc =
      [0xFFFF#16, 0x40BF#16, 0x00FF#16, 0x807E#16, 0xE0BE#16, 0xB001#16, 0x0000#16] := by decide +kernel

/-- R72 at one point: the table-driven form. -/
theorem test_crcByteByTable : crcByteByTable 0x1234#16 0x00#8 = 0xD713#16 := by decide

/-! Steps. -/

/-- V18: CRC.INIT from UNWRITTEN. -/
theorem test_step_crcInit : after .unwritten 0x0000000000#40 = some (.value 0xFFFF#16, [.ack]) := by decide
/-- R63 example: CRC.INIT in the middle of a message. -/
theorem test_step_crcInit_mid : after (.value 0x1234#16) 0x0000000000#40 = some (.value 0xFFFF#16, [.ack]) := by decide
/-- R64 example. -/
theorem test_step_crcByte : after (.value 0xFFFF#16) 0x01000000F8#40 = some (.value 0xC2BE#16, [.ack]) := by decide
/-- V18. -/
theorem test_step_crcByte_unwritten : after .unwritten 0x0100000000#40 = some (.unwritten, [.fault .accUninit]) := by decide
/-- V21. -/
theorem test_step_crcRead : after (.value 0xC2BE#16) 0x0200000000#40 = some (.value 0xC2BE#16, [.val16 0xC2BE#16]) := by
  decide
/-- V18. -/
theorem test_step_crcRead_unwritten : after .unwritten 0x0200000000#40 = some (.unwritten, [.fault .accUninit]) := by decide
/-- PG2 position 10. -/
theorem test_step_crcChk : after (.value 0x7793#16) 0x0300007793#40 = some (.value 0x7793#16, [.bit true]) := by decide
/-- V16: swapped trailer. -/
theorem test_step_crcChk_swapped : after (.value 0x7793#16) 0x0300009377#40 = some (.value 0x7793#16, [.bit false]) := by
  decide
/-- V25, before CRC.INIT (PG3 position 1). -/
theorem test_step_decCombu :
    after .unwritten 0x1080000000#40 = some (.unwritten, [.val32 0x80000000#32 2147483648]) := by decide
/-- V28. -/
theorem test_step_decCombu_high :
    after .unwritten 0x10FFFF0000#40 = some (.unwritten, [.val32 0xFFFF0000#32 4294901760]) := by decide
/-- V27: the top bit of `low` makes nothing negative. -/
theorem test_step_decCombs_low_top :
    after (.value 0x807E#16) 0x1100008000#40 = some (.value 0x807E#16, [.val32 0x00008000#32 32768]) := by decide
/-- V30. -/
theorem test_step_decCombs :
    after (.value 0x807E#16) 0x11FFFE1DC0#40 = some (.value 0x807E#16, [.val32 0xFFFE1DC0#32 (-123456)]) := by decide
/-- V33. -/
theorem test_step_decSplit :
    after .unwritten 0x1200008001#40 = some (.unwritten, [.pair8 0x80#8 0x01#8]) := by decide
/-- R87: the step of DEC.SCALE runs under the open configuration; V34: the k field selects the entry. -/
theorem test_step_decScale : after .unwritten 0x1300010064#40 =
    some (.unwritten, [.scalar (Config.block.num.mul (Config.block.num.ofNat 100#16) (Config.block.res 1))]) := rfl
/-- V20: Illegal wins over AccUninit. -/
theorem test_step_illegal_first : after .unwritten 0x0100000100#40 = some (.unwritten, [.fault .illegal]) := by decide
/-- PG3 position 7: an illegal word changes nothing. -/
theorem test_step_illegal : after (.value 0x807E#16) 0x0200000001#40 = some (.value 0x807E#16, [.fault .illegal]) := by decide

/-! The example instances of NUM. -/

/-- V36: the configuration of the exact instance. -/
abbrev exactConfig : Config := { num := exactNum, res := fun k => if k = 0 then (1 / 100 : Rat) else (1 / 10 : Rat) }

/-- V36. -/
theorem test_scale_exact :
    scaleResponse exactConfig 2305#16 0#4 = .scalar (461 / 20 : Rat) ∧
    scaleResponse exactConfig 2305#16 1#4 = .scalar (461 / 2 : Rat) ∧
    scaleResponse exactConfig 0xFFFF#16 0#4 = .scalar (13107 / 20 : Rat) := by decide +kernel

/-- V34, V36: the command word under the named configuration, before CRC.INIT; the field k selects the resolution. -/
theorem test_blockStep_exact :
    blockStep exactConfig .unwritten 0x1300000901#40 = (.unwritten, .scalar (461 / 20 : Rat)) ∧
    blockStep exactConfig .unwritten 0x1300010901#40 = (.unwritten, .scalar (461 / 2 : Rat)) := by decide +kernel

/-- PG3 position 0, then a clean command, under the named configuration. -/
theorem test_blockRun_exact : blockRun exactConfig .unwritten [0x0100000001#40, 0x1300000064#40] =
    (.unwritten, [.fault .accUninit, .scalar (1 : Rat)]) := by decide +kernel

/-- V35: the rows of the table, with 0.01 and 0.1 as resolutions. -/
theorem test_scale_binary32 :
    [0#16, 1#16, 50#16, 99#16, 100#16, 255#16, 2305#16, 0x8000#16, 0xFFFF#16].map
      (fun raw => scale binary32Num raw (0x3C23D70A#32 : Word)) =
      ([0x00000000#32, 0x3C23D70A#32, 0x3F000000#32, 0x3F7D70A3#32, 0x3F800000#32, 0x40233333#32, 0x41B86666#32,
        0x43A3D70A#32, 0x4423D666#32] : List Word) ∧
    [2305#16, 0xFFFF#16].map (fun raw => scale binary32Num raw (0x3DCCCCCD#32 : Word)) =
      ([0x43668000#32, 0x45CCCC00#32] : List Word) := by decide +kernel

/-! Frames. -/

/-- V9: the source's round-trip frame. -/
theorem test_request : request 0xF8#8 0x0000#16 0x0003#16 =
    [0xF8#8, 0x04#8, 0x00#8, 0x00#8, 0x00#8, 0x03#8, 0xA4#8, 0x62#8] := by decide +kernel

/-- V11: the response frame, its check and its registers. -/
theorem test_response : response 0xF8#8 0x04#8 0x06#8 [0x0001#16, 0x0002#16, 0xFFFF#16] =
    [0xF8#8, 0x04#8, 0x06#8, 0x00#8, 0x01#8, 0x00#8, 0x02#8, 0xFF#8, 0xFF#8, 0x93#8, 0x77#8] := by decide +kernel

/-- V17. -/
theorem test_regs : regs [0x01#8, 0x04#8, 0x02#8, 0x12#8, 0x34#8, 0xB4#8, 0x47#8] 1 = some [0x1234#16] := by decide +kernel

/-- V15: a corrupted response fails the check. -/
theorem test_check_corrupted :
    check [0xF8#8, 0x04#8, 0x06#8, 0x00#8, 0x00#8, 0x00#8, 0x02#8, 0xFF#8, 0xFF#8, 0x93#8, 0x77#8] = some false := by
  decide +kernel

/-- U11: refused below two bytes (log entry 7), beside the shortest frame (R73). -/
theorem test_validateCommands : validateCommands [] = none ∧ validateCommands [0xFF#8] = none ∧
    validateCommands [0x12#8, 0x34#8] = some [.crcInit, .crcChk 0x12#8 0x34#8] := by decide

/-! Witnesses: the hypotheses of each obligation met together, clause by clause. -/

theorem test_witness_EncodeOfDecodeIsTheWord : decode 0x13000FFFFF#40 = .ok (.decScale 0xFFFF#16 15#4) := by decide

theorem test_witness_MaskAndMatchSelectTheCommand :
    (Instr.decCombs 1#16 2#16 ∈ decComb 1#16 2#16 true) ∧ (Instr.decCombu 1#16 2#16 ∈ decComb 1#16 2#16 false) ∧
    (0x13000FFFFF#40 &&& Opcode.decScale.row.mask = Opcode.decScale.row.pattern) ∧
    (∀ o : Opcode, 0x0F00000000#40 &&& o.row.mask ≠ o.row.pattern) ∧
    (∀ o : Opcode, 0x1300100000#40 &&& o.row.mask ≠ o.row.pattern) := by
  refine ⟨by decide, by decide, by decide, fun o => ?_, fun o => ?_⟩ <;> cases o <;> decide

theorem test_witness_IllegalWordsAnswerIllegalAndChangeNothing :
    (0x04#8 ∉ [0x00#8, 0x01#8, 0x02#8, 0x03#8, 0x10#8, 0x11#8, 0x12#8, 0x13#8]) ∧
    (0xFF#8 ∉ [0x00#8, 0x01#8, 0x02#8, 0x03#8, 0x10#8, 0x11#8, 0x12#8, 0x13#8]) ∧
    (0x00000001#32 ≠ 0#32) ∧ ((0x00000100#32).extractLsb' 8 24 ≠ 0#24) ∧ ((0x80000000#32).extractLsb' 8 24 ≠ 0#24) ∧
    ((0x00010000#32).extractLsb' 16 16 ≠ 0#16) ∧ ((0x00100000#32).extractLsb' 20 12 ≠ 0#12) := by decide

theorem test_witness_AssemblerEmitsTheListedLegalWords :
    (0xFF ≤ 0xFF ∧ 0xFFFF ≤ 0xFFFF ∧ 15 ≤ 15 ∧ 15 < 16 ∧ 0xFF < 0x100 ∧ 0xFFFF < 0x10000) ∧
    assemble (.crcMsg [0xFF]) = some [0x0000000000#40, 0x01000000FF#40] := by decide

theorem test_witness_PseudoInstructionsFeedFieldsHighByteFirst : (st (.value 0xFFFF#16)).acc = .value 0xFFFF#16 := rfl

theorem test_witness_ResidueIsZeroExactlyForTheRightTrailer : computeCrc ([] ++ [0xFF#8, 0xFF#8]) = 0x0000#16 := by
  decide +kernel

theorem test_witness_CrcInitStartsANewMessage :
    exec .crcInit (st .unwritten) = .next { st (.value 0xFFFF#16) with responses := [.ack] } ∧
    exec .crcInit { st (.value 0xFFFF#16) with responses := [.ack] } =
      .next { st (.value 0xFFFF#16) with responses := [.ack, .ack] } ∧ (0x80000000#32 ≠ 0#32) := ⟨rfl, rfl, by decide⟩

theorem test_witness_CrcByteAbsorbsOneByte :
    (st (.value 0x0000#16)).acc = .value 0x0000#16 ∧ (st .unwritten).acc = .unwritten ∧
    (0x00000100#32).extractLsb' 8 24 ≠ 0#24 := by decide

theorem test_witness_CrcReadAnswersTheAccumulator :
    (st (.value 0xFFFF#16)).acc = .value 0xFFFF#16 ∧ State.reset.acc = .unwritten ∧ 0x00000001#32 ≠ 0#32 := by decide

theorem test_witness_CrcChkComparesTheLittleEndianTrailer :
    (st (.value 0x7793#16)).acc = .value 0x7793#16 ∧ State.reset.acc = .unwritten ∧
    (0x00010000#32).extractLsb' 16 16 ≠ 0#16 := by decide

theorem test_witness_AccUninitExactlyWhileUnwritten :
    State.reset.acc = .unwritten ∧ exec .crcRead (st .unwritten) = .next { st .unwritten with responses := [.fault .accUninit] } ∧
    exec (.crcByte 0x00#8) (st .unwritten) = .next { st .unwritten with responses := [.fault .accUninit] } ∧
    exec (.crcChk 0xFF#8 0xFF#8) (st .unwritten) = .next { st .unwritten with responses := [.fault .accUninit] } :=
  ⟨rfl, rfl, rfl, rfl⟩

/-- A fed byte, a read, a DEC command and an illegal word: none decodes to CRC.INIT. -/
theorem test_witness_StreamingEqualsTheContract :
    ∀ w ∈ [0x01000000F8#40, 0x0200000000#40, 0x11FFFE1DC0#40, 0x0100000100#40], decode w ≠ .ok .crcInit := by
  intro w h
  simp only [List.mem_cons, List.not_mem_nil, or_false] at h
  rcases h with rfl | rfl | rfl | rfl <;> decide

theorem test_witness_EveryStepKeepsAccTheCrcOfTheBytesFed :
    AccHolds (some []) (st (.value 0xFFFF#16)).acc ∧
    step ((st (.value 0xFFFF#16)).offer (.command 0x01000000F8#40)) =
      .next { st (.value 0xC2BE#16) with responses := [.ack] } := ⟨rfl, rfl⟩

theorem test_witness_CombinedPatternIsReadInTwoModes : (0x8000#16).getLsbD 15 = true := by decide

theorem test_witness_SplitAnswersHighByteThenLowByte : (0x00010000#32).extractLsb' 16 16 ≠ 0#16 := by decide

/-- The exact instance with the table of V36 has the properties P2 to P5 of R93, and its entry 0 is the literal 0.01. -/
theorem test_witness_ScaleAnswersTheProductWithTheSelectedResolution :
    exactConfig.Admissible exactReading ∧ exactConfig.res 0 = exactReading.centi ∧
    (0x00100000#32).extractLsb' 20 12 ≠ 0#12 :=
  ⟨⟨⟨fun _ => rfl, fun r _ => Rat.zero_mul r, by decide +kernel⟩, fun _ => trivial, fun _ _ => trivial⟩, rfl, by decide⟩

theorem test_witness_DecCommandsArePureFunctions :
    (Instr.decCombu 0#16 0#16).isDec = true ∧ (Instr.decCombs 0#16 0#16).isDec = true ∧ (Instr.decSplit 0#16).isDec = true ∧
    (Instr.decScale 0#16 15#4).isDec = true := by decide

theorem test_witness_StepRunsTheDecodedCommand :
    ((st .unwritten).offer (.command 0x0200000000#40)).pending = .command 0x0200000000#40 :: [] ∧
    decode 0x0200000000#40 = .ok .crcRead := ⟨rfl, rfl⟩

theorem test_witness_OnlyInitAndByteWriteTheAccumulator :
    exec (.crcByte 0xF8#8) (st (.value 0xFFFF#16)) = .next { st (.value 0xC2BE#16) with responses := [.ack] } ∧
    (Instr.crcRead ≠ .crcInit ∧ ∀ b, Instr.crcRead ≠ .crcByte b) ∧
    exec .crcRead (st .unwritten) = .next { st .unwritten with responses := [] ++ [.fault .accUninit] } :=
  ⟨rfl, ⟨by decide, fun _ h => by cases h⟩, rfl⟩

theorem test_witness_FaultingCommandLeavesNoTrace :
    step ((st .unwritten).offer (.command 0x0400000000#40)) =
      .next { st .unwritten with responses := [] ++ [.fault .illegal] } ∧
    step ((st .unwritten).offer (.command 0x0200000000#40)) =
      .next { st .unwritten with responses := [] ++ [.fault .accUninit] } := ⟨rfl, rfl⟩

theorem test_witness_RunOfCommandsAfterInitIsClean : State.reset.clean = true := by decide

theorem test_witness_ResponseDependsOnWordAndAccumulatorOnly :
    (st .unwritten).acc = .unwritten ∧ decode 0x1200000000#40 = .ok (.decSplit 0#16) ∧ (Instr.decSplit 0#16).isDec = true :=
  ⟨rfl, rfl, rfl⟩

theorem test_witness_EveryStepKeepsResponsesWellFormed :
    (st .unwritten).ResponsesWellFormed ∧ step ((st .unwritten).offer (.command 0x11FFFFFFFF#40)) =
      .next { st .unwritten with responses := [.val32 0xFFFFFFFF#32 (-1)] } :=
  ⟨(fun _ h => nomatch h), rfl⟩

theorem test_witness_ReadingCommandsAreIdempotent :
    (Instr.crcChk 0#8 0#8 ≠ .crcInit ∧ ∀ b, Instr.crcChk 0#8 0#8 ≠ .crcByte b) := ⟨by decide, fun _ h => by cases h⟩

theorem test_witness_OnlyInitEndsUnwrittenOnlyResetBringsItBack :
    (step ((st .unwritten).offer (.command 0x0000000000#40)) =
      .next { st (.value 0xFFFF#16) with responses := [.ack] } ∧ (st .unwritten).acc = .unwritten) ∧
    (step ((st (.value 0x1234#16)).offer .reset) = .next (st .unwritten) ∧ (st (.value 0x1234#16)).acc ≠ .unwritten) :=
  ⟨⟨rfl, rfl⟩, ⟨rfl, by decide⟩⟩

theorem test_witness_CheckComparesTheTrailer : [0xFF#8].length < 2 := by decide

theorem test_witness_ResponseFrameLayoutAndExtraction :
    [0x0001#16, 0xFFFF#16][1]? = some 0xFFFF#16 ∧ [0x0001#16, 0xFFFF#16].length = (2#16).toNat := by decide

theorem test_witness_BuildAndValidateSequencesAnswerSealAndCheck :
    2 ≤ [0xFF#8, 0xFF#8].length := by decide

theorem test_witness_BlockStepFollowsTheRulesUnderEveryConfiguration :
    (Instr.crcChk 0xFF#8 0xFF#8 ∈ [.crcByte 0#8, .crcRead, .crcChk 0xFF#8 0xFF#8]) ∧
    (∀ i, decode 0xFFFFFFFFFF#40 ≠ .ok i) := ⟨by decide, fun _ h => by cases h⟩

/-- The table of V36 with every entry doubled. -/
abbrev doubledConfig : Config := { num := exactNum, res := fun k => 2 * exactConfig.res k }

/-- Doubling takes each product under the table of V36 to the product under the doubled table. -/
theorem test_witness_ConfigurationEntersOnlyThroughTheProducts (raw : Half) (k : Fin 16) :
    (fun x : Rat => 2 * x) (exactConfig.num.mul (exactConfig.num.ofNat raw) (exactConfig.res k)) =
      doubledConfig.num.mul (doubledConfig.num.ofNat raw) (doubledConfig.res k) :=
  mul_left_comm (2 : Rat) _ _

end Sys2Proof.Tests
end

section
/-! Decoding what was encoded (spec/30_encoding.md R45, R46, R53, R54). -/

namespace Sys2Proof

/-- Bits that only the zero upper part has in common with a mask that spares the lower part are zero. -/
theorem zero_append_and_append_zero {m n : Nat} (x : BitVec n) (y : BitVec m) : (0#m ++ x) &&& (y ++ 0#n) = 0#(m + n) := by
  rw [BitVec.and_append]
  simp

/-- The operand field of a command has no bit that its format reserves (R46, R54). -/
theorem encodeArg_and_reserved (i : Instr) : encodeArg i &&& i.opcode.row.format.reserved = 0#32 := by
  cases i with
  | crcInit => rfl
  | crcByte b => exact zero_append_and_append_zero b 0xFFFFFF#24
  | crcRead => rfl
  | crcChk lo hi => exact zero_append_and_append_zero (hi ++ lo) 0xFFFF#16
  | decCombu high low => exact BitVec.and_zero
  | decCombs high low => exact BitVec.and_zero
  | decSplit reg => exact zero_append_and_append_zero reg 0xFFFF#16
  | decScale raw k => exact zero_append_and_append_zero (k ++ raw) 0xFFF#12

/-- The bit slices of R46 read the operands back from the operand field. -/
theorem operands_encodeArg (i : Instr) : operands (encodeArg i) i.opcode = i := by
  cases i with
  | crcInit => rfl
  | crcByte b => exact congrArg Instr.crcByte (extract_append_low 0#24 b)
  | crcRead => rfl
  | crcChk lo hi => exact congrArg₂ Instr.crcChk (extract_append_lowest 0#16 hi lo) (extract_append_middle 0#16 hi lo)
  | decCombu high low => exact congrArg₂ Instr.decCombu (extract_append_high high low) (extract_append_low high low)
  | decCombs high low => exact congrArg₂ Instr.decCombs (extract_append_high high low) (extract_append_low high low)
  | decSplit reg => exact congrArg Instr.decSplit (extract_append_low 0#16 reg)
  | decScale raw k => exact congrArg₂ Instr.decScale (extract_append_lowest 0#12 k raw) (extract_append_middle 0#12 k raw)

/-- The word of a command decodes to the command. -/
@[simp] theorem decode_encode (i : Instr) : decode (encode i) = .ok i := by
  simp [decode, opField_encode, argField_encode, opcodeOf_row, encodeArg_and_reserved, operands_encodeArg]

/-- A command word survives being handed over as a number of 40 bits. -/
@[simp] theorem tableWord_toNat (w : CmdWord) : tableWord 40 w.toNat = w := by
  rw [tableWord, Nat.mod_eq_of_lt w.isLt, BitVec.ofNat_toNat, BitVec.setWidth_eq]

end Sys2Proof
end

section
/-! The rule of each command under any configuration, in closed form (R63 to R66, R84 to R87, R103). -/

namespace Sys2Proof.Machine

@[simp] theorem commandRule_crcInit (c : Config) (a : Acc) : commandRule c .crcInit a = (.value 0xFFFF#16, .ack) := rfl

@[simp] theorem commandRule_crcByte_value (c : Config) (b : Byte) (v : Half) :
    commandRule c (.crcByte b) (.value v) = (.value (crcByte v b), .ack) := rfl

@[simp] theorem commandRule_crcRead_value (c : Config) (v : Half) :
    commandRule c .crcRead (.value v) = (.value v, .val16 v) := rfl

@[simp] theorem commandRule_crcChk_value (c : Config) (lo hi : Byte) (v : Half) :
    commandRule c (.crcChk lo hi) (.value v) = (.value v, .bit (decide (v = hi ++ lo))) := rfl

/-- The three commands that need the value of ACC fault while there is none (R103). -/
theorem commandRule_unwritten (c : Config) {b lo hi : Byte} {i : Instr} (h : i ∈ [.crcByte b, .crcRead, .crcChk lo hi]) :
    commandRule c i .unwritten = (.unwritten, .fault .accUninit) := by
  simp only [List.mem_cons, List.not_mem_nil, or_false] at h
  obtain rfl | rfl | rfl := h <;> rfl

@[simp] theorem commandRule_decCombu (c : Config) (high low : Half) (a : Acc) :
    commandRule c (.decCombu high low) a = (a, .val32 (high ++ low) (uint (high ++ low) : Int)) := rfl

@[simp] theorem commandRule_decCombs (c : Config) (high low : Half) (a : Acc) :
    commandRule c (.decCombs high low) a = (a, .val32 (high ++ low) (sint (high ++ low))) := rfl

@[simp] theorem commandRule_decSplit (c : Config) (reg : Half) (a : Acc) :
    commandRule c (.decSplit reg) a = (a, .pair8 (reg.extractLsb' 8 8) (reg.extractLsb' 0 8)) := rfl

@[simp] theorem commandRule_decScale (c : Config) (raw : Half) (k : BitVec 4) (a : Acc) :
    commandRule c (.decScale raw k) a = (a, .scalar (c.num.mul (c.num.ofNat raw) (c.res k.toFin))) := rfl

@[simp] theorem blockStep_encode (c : Config) (a : Acc) (i : Instr) : blockStep c a (encode i) = commandRule c i a :=
  blockStep_ok (decode_encode i) c a

theorem blockStep_of_not_command {w : CmdWord} (h : ∀ i, decode w ≠ .ok i) (c : Config) (a : Acc) :
    blockStep c a w = (a, .fault .illegal) := by
  cases hw : decode w with
  | error e => exact blockStep_error hw c a
  | ok i => exact absurd hw (h i)

/-- Settles O53: each command's word decodes to it, and its rule in closed form is the one stated. -/
theorem blockStepFollowsTheRulesUnderEveryConfiguration :
    Obligations.BlockStepFollowsTheRulesUnderEveryConfiguration := by
  unfold Obligations.BlockStepFollowsTheRulesUnderEveryConfiguration
  intro c
  simp only [blockStep_encode, commandRule_crcInit, commandRule_crcByte_value, commandRule_crcRead_value,
    commandRule_crcChk_value, commandRule_decCombu, commandRule_decCombs, commandRule_decSplit, commandRule_decScale,
    implies_true, true_and]
  exact ⟨fun _ _ _ _ h => commandRule_unwritten c h, fun a _ h => blockStep_of_not_command h c a⟩

end Sys2Proof.Machine
end

section
/-! The run of the block (R3, R126): its equations, and that it is the left fold of the step. -/

namespace Sys2Proof.Machine

@[simp] theorem blockRun_nil (c : Config) (a : Acc) : blockRun c a [] = (a, []) := rfl

@[simp] theorem blockRun_cons (c : Config) (a : Acc) (w : CmdWord) (ws : List CmdWord) :
    blockRun c a (w :: ws) =
      ((blockRun c (blockStep c a w).1 ws).1, (blockStep c a w).2 :: (blockRun c (blockStep c a w).1 ws).2) := rfl

/-- A run over two lists is the run over the first, then the run over the second from the ACC it left. -/
theorem blockRun_append (c : Config) (a : Acc) (ws vs : List CmdWord) :
    blockRun c a (ws ++ vs) =
      ((blockRun c (blockRun c a ws).1 vs).1, (blockRun c a ws).2 ++ (blockRun c (blockRun c a ws).1 vs).2) := by
  induction ws generalizing a with
  | nil => rfl
  | cons w ws ih => simp [ih]

theorem blockRun_responses_length (c : Config) (a : Acc) (ws : List CmdWord) :
    (blockRun c a ws).2.length = ws.length := by
  induction ws generalizing a with
  | nil => rfl
  | cons w ws ih => simp [ih]

theorem blockRun_acc_eq_foldl (c : Config) (a : Acc) (ws : List CmdWord) :
    (blockRun c a ws).1 = ws.foldl (fun x w => (blockStep c x w).1) a := by
  induction ws generalizing a with
  | nil => rfl
  | cons w ws ih => simp [ih]

/-- Settles O55: the clause for a word more at the end is `blockRun_append` at one word. -/
theorem runIsTheFoldOfTheBlockStep : Obligations.RunIsTheFoldOfTheBlockStep := by
  unfold Obligations.RunIsTheFoldOfTheBlockStep
  exact fun c a => ⟨blockRun_nil c a, fun ws w => blockRun_append c a ws [w],
    fun ws => ⟨blockRun_responses_length c a ws, blockRun_acc_eq_foldl c a ws⟩⟩

end Sys2Proof.Machine
end

section
/-! Change of configuration (R20 to R22): a function that takes the products of one to the products of another takes the
rules, the steps and the runs of the one to those of the other. -/

namespace Sys2Proof.Machine

section
variable {c d : Config} {f : c.num.Scalar → d.num.Scalar}
  (hf : ∀ raw k, f (c.num.mul (c.num.ofNat raw) (c.res k)) = d.num.mul (d.num.ofNat raw) (d.res k))
include hf

/-- DEC.SCALE is the one command whose rule needs the products; the CRC commands look at ACC only. -/
theorem commandRule_change_config (i : Instr) (a : Acc) :
    commandRule d i a = Prod.map id (Rsp.map f) (commandRule c i a) := by
  cases i with
  | crcInit => rfl
  | crcByte b => cases a <;> rfl
  | crcRead => cases a <;> rfl
  | crcChk lo hi => cases a <;> rfl
  | decCombu high low => rfl
  | decCombs high low => rfl
  | decSplit reg => rfl
  | decScale raw k => simp [hf]

theorem blockStep_change_config (a : Acc) (w : CmdWord) :
    blockStep d a w = Prod.map id (Rsp.map f) (blockStep c a w) := by
  cases hw : decode w with
  | error e => simp [blockStep_error hw]
  | ok i => simp only [blockStep_ok hw, commandRule_change_config hf]

theorem blockRun_change_config (a : Acc) (ws : List CmdWord) :
    blockRun d a ws = Prod.map id (List.map (Rsp.map f)) (blockRun c a ws) := by
  induction ws generalizing a with
  | nil => rfl
  | cons w ws ih => simp [blockStep_change_config hf, ih]

end

/-- Settles O56, by induction on the words over the change of configuration of one step. -/
theorem configurationEntersOnlyThroughTheProducts : Obligations.ConfigurationEntersOnlyThroughTheProducts := by
  unfold Obligations.ConfigurationEntersOnlyThroughTheProducts
  exact fun _ _ _ hf a ws => blockRun_change_config hf a ws

end Sys2Proof.Machine
end

section
/-! The machine of the host's interface: its step over a word is the block's under `Config.block`, and over any input it is
independent of what is pending. -/

namespace Sys2Proof.Machine

theorem execute_eq_blockStep (w : CmdWord) (s : State) :
    execute w s = .next { s with acc := (blockStep Config.block s.acc w).1,
                                 responses := s.responses ++ [(blockStep Config.block s.acc w).2] } := by
  cases hw : decode w with
  | error e => rw [execute_error hw, blockStep_error hw]
  | ok i => rw [execute_ok hw, exec_eq_perform, perform_eq, blockStep_ok hw]

/-- One step over a command word (R3). -/
theorem step_offer_command_eq_blockStep (w : CmdWord) (s : State) :
    step (s.offer (.command w)) = .next { s with acc := (blockStep Config.block s.acc w).1,
                                                 responses := s.responses ++ [(blockStep Config.block s.acc w).2] } := by
  rw [step_offer_command, execute_eq_blockStep]

theorem runWords_cons {s t : State} {w : CmdWord} (h : step (s.offer (.command w)) = .next t) (ws : List CmdWord) :
    runWords (w :: ws) s = runWords ws t := runInputs_cons h _

/-- A run over command words (R126). -/
theorem runWords_eq_blockRun (ws : List CmdWord) (s : State) :
    runWords ws s = .next { s with acc := (blockRun Config.block s.acc ws).1,
                                   responses := s.responses ++ (blockRun Config.block s.acc ws).2 } := by
  induction ws generalizing s with
  | nil => simp [runWords, runInputs]
  | cons w ws ih => simp [runWords_cons (step_offer_command_eq_blockStep w s), ih]

/-- Settles O54. -/
theorem machineIsTheBlockUnderItsConfiguration : Obligations.MachineIsTheBlockUnderItsConfiguration := by
  unfold Obligations.MachineIsTheBlockUnderItsConfiguration
  exact ⟨step_offer_command_eq_blockStep, runWords_eq_blockRun⟩

/-- What a step over an offered input can do: it leaves an ACC and responses that depend on the input, ACC and the earlier
responses, and whatever else is pending stays. -/
theorem step_offer_shape (x : Input) (s : State) : ∃ a rs, ∀ later,
    step (State.offer x { s with pending := later }) = .next { acc := a, pending := later, responses := rs } := by
  cases x with
  | reset => exact ⟨_, _, fun _ => rfl⟩
  | command w =>
    exact ⟨(blockStep Config.block s.acc w).1, s.responses ++ [(blockStep Config.block s.acc w).2],
      fun later => step_offer_command_eq_blockStep w { s with pending := later }⟩

/-- A step with an input pending is the step over that input, offered to the state without it. -/
theorem step_eq_step_offer {s : State} {x : Input} {rest : List Input} (h : s.pending = x :: rest) :
    step s = step (State.offer x { s with pending := rest }) := congrArg step (eq_offer h)

/-- Settles O37: with nothing pending the step is idle, else it is a step over an offered input. -/
theorem stepAlwaysAnswersANextState : Obligations.StepAlwaysAnswersANextState := by
  unfold Obligations.StepAlwaysAnswersANextState
  intro s
  cases hp : s.pending with
  | nil => exact ⟨s, step_idle hp, hp⟩
  | cons x rest =>
    obtain ⟨a, rs, h⟩ := step_offer_shape x s
    exact ⟨_, (step_eq_step_offer hp).trans (h rest), rfl⟩

/-- The host's run over pending inputs is the fold of the step over them. -/
theorem core_run_pending_eq_runInputs (xs rest : List Input) (s : State) :
    Host.Core.run core xs.length ({ s with pending := xs ++ rest } : State) = runInputs xs { s with pending := rest } := by
  induction xs generalizing s with
  | nil => rfl
  | cons x xs ih =>
    obtain ⟨a, rs, h⟩ := step_offer_shape x s
    have hstep : Host.Core.run core (xs.length + 1) ({ s with pending := x :: (xs ++ rest) } : State) =
        Host.Core.run core xs.length ({ acc := a, pending := xs ++ rest, responses := rs } : State) :=
      core_run_succ (h (xs ++ rest)) xs.length
    have hfold : runInputs (x :: xs) { s with pending := rest } = runInputs xs { acc := a, pending := rest, responses := rs } :=
      runInputs_cons (h rest) xs
    rw [hfold]
    exact hstep.trans (ih { acc := a, pending := [], responses := rs })

/-- Settles O48. -/
theorem runOverPendingInputsIsTheFold : Obligations.RunOverPendingInputsIsTheFold := by
  unfold Obligations.RunOverPendingInputsIsTheFold
  exact core_run_pending_eq_runInputs

theorem step_withFetchWord_encode (s : State) (i : Instr) : step (s.withFetchWord 40 (encode i).toNat) = exec i s := by
  rw [State.withFetchWord, tableWord_toNat, step_offer_command, execute_ok (decode_encode i)]

/-- Settles O34. -/
theorem stepRunsTheDecodedCommand : Obligations.StepRunsTheDecodedCommand := by
  unfold Obligations.StepRunsTheDecodedCommand
  refine ⟨fun s w rest i hp hw => ?_, step_withFetchWord_encode⟩
  rw [step_eq_step_offer hp, step_offer_command, execute_ok hw]

end Sys2Proof.Machine
end

section
/-! What a command can do to ACC and to the response (R14, R88, R106), under any configuration and in the machine. -/

namespace Sys2Proof.Machine

@[simp] theorem commandRule_crcByte_unwritten (c : Config) (b : Byte) :
    commandRule c (.crcByte b) .unwritten = (.unwritten, .fault .accUninit) := rfl

/-- CRC.INIT and CRC.BYTE are the only writers of ACC (R14). -/
theorem commandRule_acc_of_not_writer (c : Config) {i : Instr} (h : i ≠ .crcInit ∧ ∀ b, i ≠ .crcByte b) (a : Acc) :
    (commandRule c i a).1 = a := by
  obtain ⟨hinit, hbyte⟩ := h
  cases i with
  | crcInit => exact absurd rfl hinit
  | crcByte b => exact absurd rfl (hbyte b)
  | crcRead => cases a <;> rfl
  | crcChk lo hi => cases a <;> rfl
  | decCombu high low => rfl
  | decCombs high low => rfl
  | decSplit reg => rfl
  | decScale raw k => rfl

/-- A command that faults leaves ACC (R106): of the two writers only CRC.BYTE faults, and only while ACC is UNWRITTEN. -/
theorem commandRule_acc_of_fault {c : Config} {i : Instr} {a : Acc} {f : CmdFault}
    (h : (commandRule c i a).2 = .fault f) : (commandRule c i a).1 = a := by
  cases i with
  | crcInit => simp at h
  | crcByte b =>
    cases a with
    | unwritten => rfl
    | value v => simp at h
  | _ => exact commandRule_acc_of_not_writer c ⟨by simp, by simp⟩ a

/-- A DEC command leaves ACC and gives one response, no fault, whatever ACC is (R88). -/
theorem commandRule_of_isDec (c : Config) {i : Instr} (h : i.isDec = true) :
    ∃ r, r.isFault = false ∧ ∀ a, commandRule c i a = (a, r) := by
  cases i with
  | crcInit => cases h
  | crcByte b => cases h
  | crcRead => cases h
  | crcChk lo hi => cases h
  | decCombu high low => exact ⟨_, rfl, commandRule_decCombu c high low⟩
  | decCombs high low => exact ⟨_, rfl, commandRule_decCombs c high low⟩
  | decSplit reg => exact ⟨_, rfl, commandRule_decSplit c reg⟩
  | decScale raw k => exact ⟨_, rfl, commandRule_decScale c raw k⟩

/-- CRC.INIT and the DEC commands do not read ACC for their response (R14). -/
theorem commandRule_response_of_not_reader (c : Config) {i : Instr} (hi : i = .crcInit ∨ i.isDec = true) :
    ∃ r, ∀ a, (commandRule c i a).2 = r := by
  obtain rfl | hdec := hi
  · exact ⟨.ack, fun _ => rfl⟩
  · obtain ⟨r, -, hr⟩ := commandRule_of_isDec c hdec
    exact ⟨r, fun a => by rw [hr]⟩

/-- A command's meaning in the machine is its rule under `Config.block`. -/
theorem exec_eq_commandRule (i : Instr) (s : State) :
    exec i s = .next { s with acc := (commandRule Config.block i s.acc).1,
                              responses := s.responses ++ [(commandRule Config.block i s.acc).2] } := by
  rw [exec_eq_perform, perform_eq]

/-- Settles O40: the frame of a command is the frame of its rule. -/
theorem onlyInitAndByteWriteTheAccumulator : Obligations.OnlyInitAndByteWriteTheAccumulator := by
  unfold Obligations.OnlyInitAndByteWriteTheAccumulator
  simp only [exec_eq_commandRule, Host.Outcome.next.injEq]
  refine ⟨?_, fun i hi => ?_⟩
  · rintro i s t rfl
    refine ⟨fun hi => commandRule_acc_of_not_writer _ hi _, fun f hf => ?_, rfl, _, rfl⟩
    have hresponse : (commandRule Config.block i s.acc).2 = .fault f := by simpa using hf
    exact commandRule_acc_of_fault hresponse
  · obtain ⟨r, hr⟩ := commandRule_response_of_not_reader Config.block hi
    exact ⟨r, fun s => ⟨_, rfl, by rw [hr]⟩⟩

/-- Settles O43: the step over a word is the block's, which is given the word and ACC only. -/
theorem responseDependsOnWordAndAccumulatorOnly : Obligations.ResponseDependsOnWordAndAccumulatorOnly := by
  unfold Obligations.ResponseDependsOnWordAndAccumulatorOnly
  simp only [step_offer_command_eq_blockStep]
  refine ⟨?_, fun w i hw hdec => ?_⟩
  · intro w a
    exact ⟨(blockStep Config.block a w).1, (blockStep Config.block a w).2, by rintro s rfl; rfl⟩
  · obtain ⟨r, -, hr⟩ := commandRule_of_isDec Config.block hdec
    exact ⟨r, fun s => by rw [blockStep_ok hw, hr]⟩

/-- Settles O36: at reset ACC is UNWRITTEN, and the short runs are runs of the block from there. -/
theorem resetStateNeedsInitForTheCrcUnitOnly : Obligations.ResetStateNeedsInitForTheCrcUnitOnly := by
  unfold Obligations.ResetStateNeedsInitForTheCrcUnitOnly
  refine ⟨State.reset_acc, fun _ => nofun, ?_⟩
  simp only [exec_eq_commandRule, runInstrs, runWords_eq_blockRun, State.reset_acc, State.reset_responses]
  refine ⟨fun i hdec => ?_, fun b lo hi i h => ?_, fun b => ?_, ?_, fun lo hi => ?_⟩
  · obtain ⟨r, hfault, hr⟩ := commandRule_of_isDec Config.block hdec
    exact ⟨_, r, rfl, by simp [hr], hfault⟩
  · rw [commandRule_unwritten _ h]
    rfl
  all_goals simp

end Sys2Proof.Machine
end

section
/-! ACC over one step (R13, R14): which inputs write it, and that it is the CRC of the bytes fed. -/

namespace Sys2Proof.Machine

/-- The inversion lemma of `step`: it idles, resets, or takes the block's step over a word. -/
theorem step_cases {s t : State} (h : step s = .next t) :
    (s.pending = [] ∧ t = s) ∨
    (∃ rest, s.pending = .reset :: rest ∧ t = { s with acc := .unwritten, pending := rest }) ∨
    (∃ w rest, s.pending = .command w :: rest ∧
      t = { acc := (blockStep Config.block s.acc w).1, pending := rest,
            responses := s.responses ++ [(blockStep Config.block s.acc w).2] }) := by
  cases hp : s.pending with
  | nil =>
    rw [step_idle hp] at h
    cases h
    exact .inl ⟨rfl, rfl⟩
  | cons x rest =>
    rw [step_eq_step_offer hp] at h
    cases x with
    | reset =>
      rw [step_offer_reset, resetEvent_eq] at h
      cases h
      exact .inr (.inl ⟨rest, rfl, rfl⟩)
    | command w =>
      rw [step_offer_command_eq_blockStep] at h
      cases h
      exact .inr (.inr ⟨w, rest, rfl, rfl⟩)

/-- What a word can do to ACC: start a message, absorb a byte, or nothing. -/
theorem blockStep_acc_cases (c : Config) (a : Acc) (w : CmdWord) :
    (decode w = .ok .crcInit ∧ (blockStep c a w).1 = .value 0xFFFF#16) ∨
    (∃ b, decode w = .ok (.crcByte b) ∧ (blockStep c a w).1 = (commandRule c (.crcByte b) a).1) ∨
    (decode w ≠ .ok .crcInit ∧ (∀ b, decode w ≠ .ok (.crcByte b)) ∧ (blockStep c a w).1 = a) := by
  cases hw : decode w with
  | error e => simp [blockStep_error hw]
  | ok i =>
    rw [blockStep_ok hw]
    cases i with
    | crcInit => exact .inl ⟨rfl, rfl⟩
    | crcByte b => exact .inr (.inl ⟨b, rfl, rfl⟩)
    | _ => exact .inr (.inr ⟨by simp, by simp, commandRule_acc_of_not_writer c ⟨by simp, by simp⟩ a⟩)

@[simp] theorem fedAfter_none (fed : Option (List Byte)) : fedAfter none fed = fed := rfl

@[simp] theorem fedAfter_reset (fed : Option (List Byte)) : fedAfter (some .reset) fed = none := rfl

theorem fedAfter_crcInit {w : CmdWord} (hw : decode w = .ok .crcInit) (fed : Option (List Byte)) :
    fedAfter (some (.command w)) fed = some [] := by simp [fedAfter, hw]

theorem fedAfter_crcByte {w : CmdWord} {b : Byte} (hw : decode w = .ok (.crcByte b)) (fed : Option (List Byte)) :
    fedAfter (some (.command w)) fed = fed.map (· ++ [b]) := by simp [fedAfter, hw]

/-- Every other word, an illegal one included, leaves the fed bytes. -/
theorem fedAfter_of_not_writer {w : CmdWord} (hinit : decode w ≠ .ok .crcInit) (hbyte : ∀ b, decode w ≠ .ok (.crcByte b))
    (fed : Option (List Byte)) : fedAfter (some (.command w)) fed = fed := by simp [fedAfter]

@[simp] theorem accHolds_none (a : Acc) : AccHolds none a ↔ a = .unwritten := Iff.rfl

@[simp] theorem accHolds_some (bytes : List Byte) (a : Acc) : AccHolds (some bytes) a ↔ a = .value (computeCrc bytes) :=
  Iff.rfl

/-- One byte more is one `crc_byte` more (R62). -/
theorem computeCrc_append_singleton (bytes : List Byte) (b : Byte) :
    computeCrc (bytes ++ [b]) = crcByte (computeCrc bytes) b := List.foldl_concat ..

/-- Feeding a byte: with no CRC.INIT yet ACC stays UNWRITTEN and no byte counts as fed, else both take the byte. -/
theorem accHolds_crcByte (c : Config) {fed : Option (List Byte)} {a : Acc} (b : Byte) (h : AccHolds fed a) :
    AccHolds (fed.map (· ++ [b])) (commandRule c (.crcByte b) a).1 := by
  cases fed with
  | none =>
    obtain rfl : a = .unwritten := h
    rfl
  | some bytes =>
    obtain rfl : a = .value (computeCrc bytes) := h
    simp [computeCrc_append_singleton]

/-- R13 over one command word, under any configuration. -/
theorem accHolds_blockStep (c : Config) {fed : Option (List Byte)} {a : Acc} (w : CmdWord) (h : AccHolds fed a) :
    AccHolds (fedAfter (some (.command w)) fed) (blockStep c a w).1 := by
  obtain ⟨hw, hacc⟩ | ⟨b, hw, hacc⟩ | ⟨hinit, hbyte, hacc⟩ := blockStep_acc_cases c a w
  · rw [fedAfter_crcInit hw, hacc]
    rfl
  · rw [fedAfter_crcByte hw, hacc]
    exact accHolds_crcByte c b h
  · rwa [fedAfter_of_not_writer hinit hbyte, hacc]

/-- Settles O20: a step idles, resets, or takes a word. -/
theorem everyStepKeepsAccTheCrcOfTheBytesFed : Obligations.EveryStepKeepsAccTheCrcOfTheBytesFed := by
  unfold Obligations.EveryStepKeepsAccTheCrcOfTheBytesFed
  intro s t fed hacc hstep
  obtain ⟨hp, rfl⟩ | ⟨rest, hp, rfl⟩ | ⟨w, rest, hp, rfl⟩ := step_cases hstep <;> rw [hp]
  · simpa using hacc
  · simp
  · exact accHolds_blockStep Config.block w hacc

/-- Settles O21: the base case of O20. -/
theorem accHoldsTheCrcOfTheBytesFedAtReset : Obligations.AccHoldsTheCrcOfTheBytesFedAtReset := by
  unfold Obligations.AccHoldsTheCrcOfTheBytesFedAtReset
  exact (accHolds_none _).2 State.reset_acc

/-- A word that takes ACC out of UNWRITTEN is CRC.INIT (R14, R110). -/
theorem blockStep_ends_unwritten {c : Config} {w : CmdWord} (h : (blockStep c .unwritten w).1 ≠ .unwritten) :
    decode w = .ok .crcInit ∧ (blockStep c .unwritten w).1 = .value 0xFFFF#16 := by
  obtain hinit | ⟨b, -, hacc⟩ | ⟨-, -, hacc⟩ := blockStep_acc_cases c .unwritten w
  · exact hinit
  · exact absurd hacc h
  · exact absurd hacc h

/-- No word makes a written ACC UNWRITTEN (R115). -/
theorem blockStep_keeps_written {c : Config} {a : Acc} {w : CmdWord} (h : a ≠ .unwritten) :
    (blockStep c a w).1 ≠ .unwritten := by
  obtain ⟨-, hacc⟩ | ⟨b, -, hacc⟩ | ⟨-, -, hacc⟩ := blockStep_acc_cases c a w <;> rw [hacc]
  · simp
  · cases a with
    | unwritten => exact absurd rfl h
    | value v => simp
  · exact h

/-- Settles O47. -/
theorem onlyInitEndsUnwrittenOnlyResetBringsItBack : Obligations.OnlyInitEndsUnwrittenOnlyResetBringsItBack := by
  unfold Obligations.OnlyInitEndsUnwrittenOnlyResetBringsItBack
  intro s t hstep
  obtain ⟨hp, rfl⟩ | ⟨rest, hp, rfl⟩ | ⟨w, rest, hp, rfl⟩ := step_cases hstep <;> rw [hp]
  · exact ⟨fun hacc hne => absurd hacc hne, fun hne hacc => absurd hacc hne⟩
  · exact ⟨fun _ hne => absurd rfl hne, fun _ _ => rfl⟩
  · refine ⟨fun hacc hne => ?_, fun hne hacc => absurd hacc (blockStep_keeps_written hne)⟩
    rw [hacc] at hne ⊢
    obtain ⟨hinit, hvalue⟩ := blockStep_ends_unwritten hne
    exact ⟨w, rfl, hinit, hvalue⟩

end Sys2Proof.Machine
end

section
/-! Idempotency of the commands (spec/20_memory.md R41). -/

namespace Sys2Proof.Machine

/-- A run over commands is the block's run over their words. -/
theorem runInstrs_eq_blockRun (is : List Instr) (s : State) :
    runInstrs is s = .next { s with acc := (blockRun Config.block s.acc (is.map encode)).1,
                                    responses := s.responses ++ (blockRun Config.block s.acc (is.map encode)).2 } :=
  runWords_eq_blockRun (is.map encode) s

/-- Settles O46: a command that does not write ACC meets the same ACC again, CRC.INIT does not look at it, and from 0xFFFF
the byte 0x00 taken twice gives another ACC than taken once. -/
theorem readingCommandsAreIdempotent : Obligations.ReadingCommandsAreIdempotent := by
  unfold Obligations.ReadingCommandsAreIdempotent
  refine ⟨fun i hi s => ⟨(commandRule Config.block i s.acc).2, ?_, ?_⟩, fun s => ?_, 0x00#8,
    { State.reset with acc := .value 0xFFFF#16 }, ?_⟩
  · rw [exec_eq_commandRule, commandRule_acc_of_not_writer Config.block hi]
  · simp [runInstrs_eq_blockRun, commandRule_acc_of_not_writer Config.block hi]
  · exact ⟨_, _, runInstrs_eq_blockRun _ s, runInstrs_eq_blockRun _ s, by simp⟩
  · have htwice : crcByte 0xFFFF#16 0x00#8 ≠ crcByte (crcByte 0xFFFF#16 0x00#8) 0x00#8 := by decide
    exact ⟨_, _, runInstrs_eq_blockRun _ _, runInstrs_eq_blockRun _ _, by simpa using htwice⟩

end Sys2Proof.Machine
end

section
/-! Bytes of a frame, its trailer and its check (R26, R29, R30, R35, R36). -/

namespace Sys2Proof.Machine

@[simp] theorem highByte_append_lowByte (v : Half) : highByte v ++ lowByte v = v :=
  (BitVec.extractLsb'_append_extractLsb'_eq_extractLsb' (start₁ := 0) (len₁ := 8) rfl).trans BitVec.extractLsb'_eq_self

theorem byteAt_append_left {f : List Byte} {i : Nat} (h : i < f.length) (g : List Byte) : byteAt (f ++ g) i = byteAt f i :=
  List.getD_append f g 0#8 i h

theorem byteAt_append_right (f g : List Byte) (i : Nat) : byteAt (f ++ g) (f.length + i) = byteAt g i := by
  simp [byteAt, List.getElem?_append_right]

/-- Of a message with two bytes behind it the CRC covers the message (R29). -/
@[simp] theorem covered_append_pair (m : List Byte) (t0 t1 : Byte) : covered (m ++ [t0, t1]) = m := by
  simp [covered]

/-- The byte at the lower offset is the low byte of the received CRC (R30). -/
@[simp] theorem receivedCrc_append_pair (m : List Byte) (t0 t1 : Byte) : receivedCrc (m ++ [t0, t1]) = t1 ++ t0 := by
  have hlow : byteAt (m ++ [t0, t1]) (m.length + 0) = t0 := byteAt_append_right m [t0, t1] 0
  have hhigh : byteAt (m ++ [t0, t1]) (m.length + 1) = t1 := byteAt_append_right m [t0, t1] 1
  simpa [receivedCrc] using congrArg₂ (· ++ ·) hhigh hlow

theorem check_append_pair (m : List Byte) (t0 t1 : Byte) :
    check (m ++ [t0, t1]) = some (decide (computeCrc m = t1 ++ t0)) := by
  rw [check, if_pos (by simp), covered_append_pair, receivedCrc_append_pair, beq_eq_decide]

theorem check_of_length_lt {f : List Byte} (h : f.length < 2) : check f = none := if_neg (by omega)

@[simp] theorem check_sealFrame (m : List Byte) : check (sealFrame m) = some true := by
  simp [sealFrame, check_append_pair]

@[simp] theorem length_sealFrame (m : List Byte) : (sealFrame m).length = m.length + 2 := by simp [sealFrame]

@[simp] theorem take_length_sealFrame (m : List Byte) : (sealFrame m).take m.length = m := List.take_left

theorem byteAt_sealFrame_message {m : List Byte} {i : Nat} (h : i < m.length) : byteAt (sealFrame m) i = byteAt m i :=
  byteAt_append_left h _

theorem byteAt_sealFrame_low (m : List Byte) : byteAt (sealFrame m) m.length = lowByte (computeCrc m) :=
  byteAt_append_right m _ 0

theorem byteAt_sealFrame_high (m : List Byte) : byteAt (sealFrame m) (m.length + 1) = highByte (computeCrc m) :=
  byteAt_append_right m _ 1

/-- Settles O49. -/
theorem checkComparesTheTrailer : Obligations.CheckComparesTheTrailer := by
  unfold Obligations.CheckComparesTheTrailer
  exact ⟨check_append_pair, check_sealFrame, fun _ => check_of_length_lt⟩

end Sys2Proof.Machine
end

section
/-! The two frame kinds (R27, R28): what stands at each offset, and the register values read back (R32, R37). -/

namespace Sys2Proof.Machine

/-- Settles O50: the message of a request is six bytes, and the frame seals it. -/
theorem requestFrameLayout : Obligations.RequestFrameLayout := by
  unfold Obligations.RequestFrameLayout
  intro address startReg count
  have hsix : (request address startReg count).take 6 = requestMessage address startReg count :=
    take_length_sealFrame (requestMessage address startReg count)
  rw [hsix]
  exact ⟨rfl, check_sealFrame _⟩

theorem length_flatMap_beBytes (values : List Half) : (values.flatMap beBytes).length = 2 * values.length := by
  induction values with
  | nil => rfl
  | cons v vs ih => simp [beBytes, ih]; omega

/-- Value `i` stands at offsets `2i` and `2i + 1` of the values in big-endian order (R31). -/
theorem byteAt_flatMap_beBytes {values : List Half} {i : Nat} {v : Half} (h : values[i]? = some v) :
    byteAt (values.flatMap beBytes) (2 * i) = highByte v ∧ byteAt (values.flatMap beBytes) (2 * i + 1) = lowByte v := by
  induction values generalizing i with
  | nil => simp at h
  | cons x xs ih =>
    cases i with
    | zero =>
      obtain rfl : x = v := by simpa using h
      exact ⟨rfl, rfl⟩
    | succ i => exact ih (by simpa using h)

section
variable (address function byteCount : Byte) (values : List Half)

theorem length_responseMessage :
    (responseMessage address function byteCount values).length = 3 + 2 * values.length := by
  rw [responseMessage, List.length_append, length_flatMap_beBytes]
  rfl

theorem length_response :
    (response address function byteCount values).length = 3 + values.length * 2 + 2 := by
  rw [response, length_sealFrame, length_responseMessage, Nat.mul_comm]

theorem byteAt_responseMessage (i : Nat) :
    byteAt (responseMessage address function byteCount values) (3 + i) = byteAt (values.flatMap beBytes) i :=
  byteAt_append_right [address, function, byteCount] _ i

variable {values}

/-- Value `i` stands at offsets `3 + 2i`, its high byte, and `4 + 2i`, its low byte (R28). -/
theorem byteAt_response_value {i : Nat} {v : Half} (h : values[i]? = some v) :
    byteAt (response address function byteCount values) (3 + 2 * i) = highByte v ∧
    byteAt (response address function byteCount values) (4 + 2 * i) = lowByte v := by
  obtain ⟨hi, -⟩ := List.getElem?_eq_some_iff.1 h
  have hlength := length_responseMessage address function byteCount values
  obtain ⟨hhigh, hlow⟩ := byteAt_flatMap_beBytes h
  constructor
  · rw [response, byteAt_sealFrame_message (by omega), byteAt_responseMessage, hhigh]
  · rw [response, byteAt_sealFrame_message (by omega), show 4 + 2 * i = 3 + (2 * i + 1) by omega,
      byteAt_responseMessage, hlow]

theorem registerValue_response {i : Nat} {v : Half} (h : values[i]? = some v) :
    registerValue (response address function byteCount values) i = v := by
  obtain ⟨hhigh, hlow⟩ := byteAt_response_value address function byteCount h
  rw [registerValue, hhigh, hlow]
  exact highByte_append_lowByte v

variable (values)

theorem regs_response : regs (response address function byteCount values) values.length = some values := by
  have hvalues : (List.range values.length).map (registerValue (response address function byteCount values)) = values :=
    List.ext_getElem (by simp) fun i _ hi => by
      simpa using registerValue_response address function byteCount (List.getElem?_eq_getElem hi)
  rw [regs, if_pos (by rw [length_response]; omega), hvalues]

end

/-- A 16-bit count gives a response of 5 to 131075 bytes (R43). -/
theorem responseLength_bounds (count : Half) : 5 ≤ responseLength count ∧ responseLength count ≤ 131075 := by
  have hcount : count.toNat < 2 ^ 16 := count.isLt
  unfold responseLength
  omega

/-- Settles O51: the frame is a sealed message, so its last two bytes are those of the seal, and the others those of the
message. -/
theorem responseFrameLayoutAndExtraction : Obligations.ResponseFrameLayoutAndExtraction := by
  unfold Obligations.ResponseFrameLayoutAndExtraction
  intro address function byteCount values
  have hlength := length_responseMessage address function byteCount values
  refine ⟨length_response .., fun count hcount => ⟨?_, responseLength_bounds count⟩, rfl,
    fun i v => byteAt_response_value address function byteCount, ?_, regs_response .., check_sealFrame _⟩
  · rw [length_response, hcount, responseLength]
  · rw [show 4 + 2 * values.length = 3 + 2 * values.length + 1 by omega, ← hlength, response, take_length_sealFrame]
    exact ⟨byteAt_sealFrame_low _, byteAt_sealFrame_high _⟩

end Sys2Proof.Machine
end

section
/-! The reserved fields of the formats (R46, R49): a mask that keeps them tells whether they are zero. -/

namespace Sys2Proof

/-- A mask of all ones above zeros keeps the upper part, so the result is zero when the upper slice is. -/
theorem and_allOnes_append_zero_eq_zero_iff {m n : Nat} (x : BitVec (m + n)) :
    x &&& (BitVec.allOnes m ++ 0#n) = 0#(m + n) ↔ x.extractLsb' n m = 0#m := by
  have hmask : x &&& (BitVec.allOnes m ++ 0#n) = x.extractLsb' n m ++ 0#n := by
    conv_lhs => rw [← BitVec.extractLsb'_append_extractLsb' (x := x)]
    rw [BitVec.and_append, BitVec.and_allOnes, BitVec.and_zero]
  rw [hmask, ← BitVec.zero_append_zero, BitVec.append_left_inj]

/-- A pattern with zeros in its upper part is its lower part below zeros. -/
theorem zero_append_extract_of_extract_eq_zero {m n : Nat} {x : BitVec (m + n)} (h : x.extractLsb' n m = 0#m) :
    0#m ++ x.extractLsb' 0 n = x := by
  rw [← h, BitVec.extractLsb'_append_extractLsb']

/-- Two adjacent slices at the lower end are one. -/
theorem extract_append_extract {w m n : Nat} (x : BitVec w) :
    x.extractLsb' n m ++ x.extractLsb' 0 n = x.extractLsb' 0 (m + n) :=
  BitVec.extractLsb'_append_extractLsb'_eq_extractLsb' (start₁ := 0) (by simp)

/-- The fields of `arg` marked 0 in the format (R46) are zero. -/
def Format.ReservedFieldZero : Format → Word → Prop
  | .Z, arg => arg = 0#32
  | .B, arg => arg.extractLsb' 8 24 = 0#24
  | .L, arg => arg.extractLsb' 16 16 = 0#16
  | .P, _ => True
  | .R, arg => arg.extractLsb' 16 16 = 0#16
  | .S, arg => arg.extractLsb' 20 12 = 0#12

/-- The test of the decode procedure (R53) looks at the reserved field and at nothing else. -/
theorem and_reserved_eq_zero_iff (f : Format) (arg : Word) : arg &&& f.reserved = 0#32 ↔ f.ReservedFieldZero arg := by
  cases f with
  | Z => exact Eq.congr_left BitVec.and_allOnes
  | B => exact and_allOnes_append_zero_eq_zero_iff (m := 24) (n := 8) arg
  | L => exact and_allOnes_append_zero_eq_zero_iff (m := 16) (n := 16) arg
  | P => exact iff_true_intro BitVec.and_zero
  | R => exact and_allOnes_append_zero_eq_zero_iff (m := 16) (n := 16) arg
  | S => exact and_allOnes_append_zero_eq_zero_iff (m := 12) (n := 20) arg

end Sys2Proof
end

section
/-! A word decodes exactly when it is the word of a command (R49, R53). -/

namespace Sys2Proof

@[simp] theorem opcode_operands (arg : Word) (o : Opcode) : (operands arg o).opcode = o := by cases o <;> rfl

/-- Put together again, the operands read from an operand field without reserved bits are that field. -/
theorem encodeArg_operands {arg : Word} {o : Opcode} (h : o.row.format.ReservedFieldZero arg) :
    encodeArg (operands arg o) = arg := by
  cases o with
  | crcInit => exact h.symm
  | crcByte => exact zero_append_extract_of_extract_eq_zero (m := 24) h
  | crcRead => exact h.symm
  | crcChk =>
    exact (congrArg (0#16 ++ ·) (extract_append_extract arg)).trans (zero_append_extract_of_extract_eq_zero (m := 16) h)
  | decCombu => exact BitVec.extractLsb'_append_extractLsb' (w := 16) (len := 16)
  | decCombs => exact BitVec.extractLsb'_append_extractLsb' (w := 16) (len := 16)
  | decSplit => exact zero_append_extract_of_extract_eq_zero (m := 16) h
  | decScale =>
    exact (congrArg (0#12 ++ ·) (extract_append_extract arg)).trans (zero_append_extract_of_extract_eq_zero (m := 12) h)

/-- Step 2 of the decode procedure fails (R50). -/
theorem decode_of_undefined_opcode {op : Byte} (h : opcodeOf op = none) (arg : Word) :
    decode (op ++ arg) = .error (.undefinedOpcode op) := by
  simp [decode, h]

/-- Step 3 of the decode procedure fails (R49). -/
theorem decode_of_reserved_bit {o : Opcode} {arg : Word} (h : ¬ o.row.format.ReservedFieldZero arg) :
    decode (o.row.op ++ arg) = .error (.reservedBitSet o) := by
  simp [decode, opcodeOf_row, and_reserved_eq_zero_iff, h]

/-- The decode procedure comes to its step 4. -/
theorem decode_of_reserved_zero {o : Opcode} {arg : Word} (h : o.row.format.ReservedFieldZero arg) :
    decode (o.row.op ++ arg) = .ok (operands arg o) := by
  simp [decode, opcodeOf_row, and_reserved_eq_zero_iff, h]

/-- A word that decodes has the opcode of its command, no reserved bit, and the command's operands. -/
theorem decode_ok_cases {w : CmdWord} {i : Instr} (h : decode w = .ok i) :
    ∃ o arg, w = o.row.op ++ arg ∧ o.row.format.ReservedFieldZero arg ∧ i = operands arg o := by
  cases ho : opcodeOf (opField w) with
  | none =>
    rw [← opField_append_argField w, decode_of_undefined_opcode ho] at h
    cases h
  | some o =>
    have hw : w = o.row.op ++ argField w := by rw [row_op_of_opcodeOf ho, opField_append_argField]
    by_cases hr : o.row.format.ReservedFieldZero (argField w)
    · rw [hw, decode_of_reserved_zero hr] at h
      cases h
      exact ⟨o, argField w, hw, hr, rfl⟩
    · rw [hw, decode_of_reserved_bit hr] at h
      cases h

theorem encode_of_decode {w : CmdWord} {i : Instr} (h : decode w = .ok i) : encode i = w := by
  obtain ⟨o, arg, rfl, hr, rfl⟩ := decode_ok_cases h
  rw [encode, opcode_operands, encodeArg_operands hr]

/-- Settles O2. -/
theorem decodeOfEncodeIsTheCommand : Obligations.DecodeOfEncodeIsTheCommand := by
  unfold Obligations.DecodeOfEncodeIsTheCommand
  exact decode_encode

/-- Settles O3: what the decode procedure read is put together again. -/
theorem encodeOfDecodeIsTheWord : Obligations.EncodeOfDecodeIsTheWord := by
  unfold Obligations.EncodeOfDecodeIsTheWord
  exact fun _ _ => encode_of_decode

/-- Settles O1: four words by the encoder and the round trip, the fifth by its opcode. -/
theorem decodeReadsWordsOfTheEncodings : Obligations.DecodeReadsWordsOfTheEncodings := by
  unfold Obligations.DecodeReadsWordsOfTheEncodings
  exact ⟨decode_encode (.crcByte 0xF8#8), decode_encode (.crcChk 0x93#8 0x77#8),
    decode_encode (.decCombs 0x8000#16 0x0001#16), decode_encode (.decScale 0xFFFE#16 15#4),
    decode_of_undefined_opcode (op := 0x0F#8) rfl 0#32⟩

end Sys2Proof
end

section
/-! The opcode map and the illegal words (R47, R49, R50, R102). -/

namespace Sys2Proof

theorem row_pattern (o : Opcode) : o.row.pattern = o.row.op ++ 0#32 := by cases o <;> rfl

theorem row_mask (o : Opcode) : o.row.mask = BitVec.allOnes 8 ++ o.row.format.reserved := by cases o <;> rfl

/-- The words that match a row have its opcode above an operand field without its reserved bits. -/
theorem and_mask_eq_pattern_iff (w : CmdWord) (o : Opcode) :
    w &&& o.row.mask = o.row.pattern ↔ opField w = o.row.op ∧ o.row.format.ReservedFieldZero (argField w) := by
  have hand : w &&& o.row.mask = opField w ++ (argField w &&& o.row.format.reserved) := by
    conv_lhs => rw [← opField_append_argField w]
    rw [row_mask, BitVec.and_append, BitVec.and_allOnes]
  rw [hand, row_pattern, ← and_reserved_eq_zero_iff]
  refine ⟨fun h => ⟨?_, ?_⟩, fun ⟨hop, harg⟩ => by rw [hop, harg]⟩
  · simpa using congrArg opField h
  · simpa using congrArg argField h

/-- `(w and mask) == match` selects the words of the row's command (R47). -/
theorem and_mask_eq_pattern_iff_decode (w : CmdWord) (o : Opcode) :
    w &&& o.row.mask = o.row.pattern ↔ ∃ i, decode w = .ok i ∧ i.opcode = o := by
  rw [and_mask_eq_pattern_iff]
  constructor
  · rintro ⟨hop, hr⟩
    refine ⟨operands (argField w) o, ?_, opcode_operands _ _⟩
    rw [← decode_of_reserved_zero hr, ← hop, opField_append_argField]
  · rintro ⟨i, hi, rfl⟩
    obtain ⟨o, arg, rfl, hr, rfl⟩ := decode_ok_cases hi
    simpa using hr

/-- Bit 4 of the opcode tells the unit (R47). -/
theorem row_op_getLsbD_four (i : Instr) : i.opcode.row.op.getLsbD 4 = i.isDec := by
  cases i <;> simp [Instr.opcode, Opcode.row, Instr.isDec]

end Sys2Proof

namespace Sys2Proof.Machine

theorem step_illegal {w : CmdWord} {e : DecodeError} (h : decode w = .error e) (s : State) :
    step (s.offer (.command w)) = .next { s with responses := s.responses ++ [.fault .illegal] } :=
  (step_offer_command w s).trans (execute_error h s)

/-- Settles O4: the rows are disjoint because a word decodes to one command, which has one opcode. -/
theorem maskAndMatchSelectTheCommand : Obligations.MaskAndMatchSelectTheCommand := by
  unfold Obligations.MaskAndMatchSelectTheCommand
  refine ⟨rfl, fun i => ?_, fun high low signed => ?_, and_mask_eq_pattern_iff_decode, fun w o o' h h' => ?_,
    fun w s hnone => ?_⟩
  · exact row_op_getLsbD_four i
  · cases signed <;> simp [decComb, Instr.opcode, Opcode.row]
  · obtain ⟨i, hi, rfl⟩ := (and_mask_eq_pattern_iff_decode w o).1 h
    obtain ⟨j, hj, rfl⟩ := (and_mask_eq_pattern_iff_decode w o').1 h'
    rw [Except.ok.inj (hi.symm.trans hj)]
  · cases hw : decode w with
    | error e => exact step_illegal hw s
    | ok i => exact absurd ((and_mask_eq_pattern_iff_decode w i.opcode).2 ⟨i, hw, rfl⟩) (hnone i.opcode)

/-- Settles O5: each clause is one of the two errors of the decode procedure. -/
theorem illegalWordsAnswerIllegalAndChangeNothing : Obligations.IllegalWordsAnswerIllegalAndChangeNothing := by
  unfold Obligations.IllegalWordsAnswerIllegalAndChangeNothing
  rintro op arg s (hop | ⟨rfl | rfl, h⟩ | ⟨rfl, h⟩ | ⟨rfl | rfl, h⟩ | ⟨rfl, h⟩)
  · have hnone : opcodeOf op = none := by
      simp only [List.mem_cons, List.not_mem_nil, or_false, not_or] at hop
      simp [opcodeOf, hop]
    exact step_illegal (decode_of_undefined_opcode hnone arg) s
  · exact step_illegal (decode_of_reserved_bit (o := .crcInit) h) s
  · exact step_illegal (decode_of_reserved_bit (o := .crcRead) h) s
  · exact step_illegal (decode_of_reserved_bit (o := .crcByte) h) s
  · exact step_illegal (decode_of_reserved_bit (o := .crcChk) h) s
  · exact step_illegal (decode_of_reserved_bit (o := .decSplit) h) s
  · exact step_illegal (decode_of_reserved_bit (o := .decScale) h) s

end Sys2Proof.Machine
end

section
/-! The assembler (R54): the words of commands whose operands are numbers. -/

namespace Sys2Proof

/-- Concatenation of two fields given as numbers: the lower number fits its field, so it is added below the upper one. -/
theorem ofNat_append_ofNat {n b : Nat} (m a : Nat) (hb : b < 2 ^ n) :
    BitVec.ofNat m a ++ BitVec.ofNat n b = BitVec.ofNat (m + n) (a * 2 ^ n + b) := by
  apply BitVec.eq_of_toNat_eq
  have hmod : (a * 2 ^ n + b) % 2 ^ (m + n) = a % 2 ^ m * 2 ^ n + b := by
    rw [Nat.add_comm m n, Nat.pow_add, Nat.mod_mul, Nat.mul_comm a, Nat.mul_add_mod, Nat.mod_eq_of_lt hb,
      Nat.mul_add_div (Nat.two_pow_pos n), Nat.div_eq_of_lt hb]
    ring_nf
  rw [BitVec.toNat_append, BitVec.toNat_ofNat, BitVec.toNat_ofNat, BitVec.toNat_ofNat, Nat.mod_eq_of_lt hb, hmod,
    ← Nat.shiftLeft_add_eq_or_of_lt hb, Nat.shiftLeft_eq]

/-- A field given as a number below zeros is the number. -/
theorem zero_append_ofNat {n b : Nat} (m : Nat) (hb : b < 2 ^ n) : 0#m ++ BitVec.ofNat n b = BitVec.ofNat (m + n) b := by
  rw [ofNat_append_ofNat m 0 hb, Nat.zero_mul, Nat.zero_add]

/-- The word of a command as a number: the opcode at bit 32 and the operand field (R45). -/
theorem encode_eq_ofNat {i : Instr} {op n w : Nat} (hop : i.opcode.row.op = BitVec.ofNat 8 op)
    (harg : encodeArg i = BitVec.ofNat 32 n) (hn : n < 2 ^ 32) (hw : op * 2 ^ 32 + n = w) :
    encode i = BitVec.ofNat 40 w := by
  rw [encode, hop, harg, ofNat_append_ofNat 8 op hn, hw]

/-- The range of a field, as R54 gives it. -/
@[simp] theorem fits_iff_le (width n : Nat) : fits width n = true ↔ n ≤ 2 ^ width - 1 := by
  rw [fits, decide_eq_true_iff, Nat.le_sub_one_iff_lt (Nat.two_pow_pos width)]

theorem assemble_eq_some_iff {line : AsmLine} {ws : List CmdWord} :
    assemble line = some ws ↔ line.wellFormed = true ∧ line.expand.map encode = ws := by simp [assemble]

/-- A line of one command, whose operands are in range exactly when `P`. -/
theorem assemble_eq_ite {line : AsmLine} {i : Instr} {w : CmdWord} {P : Prop} [Decidable P] (hline : line.expand = [i])
    (hwf : line.wellFormed = true ↔ P) (hword : P → encode i = w) : assemble line = if P then some [w] else none := by
  by_cases hp : P
  · simp [assemble, hwf, hp, hline, hword hp]
  · simp [assemble, hwf, hp]

theorem assemble_crcByte (b : Nat) :
    assemble (.crcByte b) = if b ≤ 0xFF then some [BitVec.ofNat 40 (0x0100000000 + b)] else none :=
  assemble_eq_ite rfl (by simp [AsmLine.wellFormed]) fun h =>
    encode_eq_ofNat (op := 0x01) rfl (zero_append_ofNat 24 (by omega)) (by omega) (by omega)

theorem assemble_crcChk (lo hi : Nat) : assemble (.crcChk lo hi) =
    if lo ≤ 0xFF ∧ hi ≤ 0xFF then some [BitVec.ofNat 40 (0x0300000000 + hi * 0x100 + lo)] else none :=
  assemble_eq_ite rfl (by simp [AsmLine.wellFormed]) fun ⟨hlo, hhi⟩ => by
    have harg : encodeArg (.crcChk (BitVec.ofNat 8 lo) (BitVec.ofNat 8 hi)) = BitVec.ofNat 32 (hi * 0x100 + lo) :=
      (congrArg (0#16 ++ ·) (ofNat_append_ofNat 8 hi (by omega))).trans (zero_append_ofNat 16 (by omega))
    exact encode_eq_ofNat (op := 0x03) rfl harg (by omega) (by omega)

theorem assemble_decCombu (high low : Nat) : assemble (.decCombu high low) =
    if high ≤ 0xFFFF ∧ low ≤ 0xFFFF then some [BitVec.ofNat 40 (0x1000000000 + high * 0x10000 + low)] else none :=
  assemble_eq_ite rfl (by simp [AsmLine.wellFormed]) fun ⟨hhigh, hlow⟩ =>
    encode_eq_ofNat (op := 0x10) rfl (ofNat_append_ofNat 16 high (by omega)) (by omega) (by omega)

theorem assemble_decCombs (high low : Nat) : assemble (.decCombs high low) =
    if high ≤ 0xFFFF ∧ low ≤ 0xFFFF then some [BitVec.ofNat 40 (0x1100000000 + high * 0x10000 + low)] else none :=
  assemble_eq_ite rfl (by simp [AsmLine.wellFormed]) fun ⟨hhigh, hlow⟩ =>
    encode_eq_ofNat (op := 0x11) rfl (ofNat_append_ofNat 16 high (by omega)) (by omega) (by omega)

theorem assemble_decSplit (reg : Nat) :
    assemble (.decSplit reg) = if reg ≤ 0xFFFF then some [BitVec.ofNat 40 (0x1200000000 + reg)] else none :=
  assemble_eq_ite rfl (by simp [AsmLine.wellFormed]) fun h =>
    encode_eq_ofNat (op := 0x12) rfl (zero_append_ofNat 16 (by omega)) (by omega) (by omega)

theorem assemble_decScale (raw k : Nat) : assemble (.decScale raw k) =
    if raw ≤ 0xFFFF ∧ k ≤ 15 then some [BitVec.ofNat 40 (0x1300000000 + k * 0x10000 + raw)] else none :=
  assemble_eq_ite rfl (by simp [AsmLine.wellFormed]) fun ⟨hraw, hk⟩ => by
    have harg : encodeArg (.decScale (BitVec.ofNat 16 raw) (BitVec.ofNat 4 k)) = BitVec.ofNat 32 (k * 0x10000 + raw) :=
      (congrArg (0#12 ++ ·) (ofNat_append_ofNat 4 k (by omega))).trans (zero_append_ofNat 12 (by omega))
    exact encode_eq_ofNat (op := 0x13) rfl harg (by omega) (by omega)

theorem decode_of_mem_assemble {line : AsmLine} {ws : List CmdWord} {w : CmdWord} (h : assemble line = some ws)
    (hw : w ∈ ws) : ∃ i, decode w = .ok i := by
  obtain ⟨-, rfl⟩ := assemble_eq_some_iff.1 h
  obtain ⟨i, -, rfl⟩ := List.mem_map.1 hw
  exact ⟨i, decode_encode i⟩

/-- Settles O6: the clauses in range and out of range are the two branches of each line's assembly. -/
theorem assemblerEmitsTheListedLegalWords : Obligations.AssemblerEmitsTheListedLegalWords := by
  unfold Obligations.AssemblerEmitsTheListedLegalWords
  refine ⟨rfl, rfl, fun b hb => ?_, fun lo hi hlo hhi => ?_, fun high low hhigh hlow => ⟨?_, ?_⟩, fun reg hreg => ?_,
    fun raw k hraw hk => ?_, fun b hb => ?_, fun lo hi h => ?_, fun high low h => ⟨?_, ?_⟩, fun reg hreg => ?_,
    fun raw k h => ?_, fun line ws h w => decode_of_mem_assemble h⟩
  · exact (assemble_crcByte b).trans (if_pos hb)
  · exact (assemble_crcChk lo hi).trans (if_pos ⟨hlo, hhi⟩)
  · exact (assemble_decCombu high low).trans (if_pos ⟨hhigh, hlow⟩)
  · exact (assemble_decCombs high low).trans (if_pos ⟨hhigh, hlow⟩)
  · exact (assemble_decSplit reg).trans (if_pos hreg)
  · exact (assemble_decScale raw k).trans (if_pos ⟨hraw, hk⟩)
  · exact (assemble_crcByte b).trans (if_neg (by omega))
  · exact (assemble_crcChk lo hi).trans (if_neg (by omega))
  · exact (assemble_decCombu high low).trans (if_neg (by omega))
  · exact (assemble_decCombs high low).trans (if_neg (by omega))
  · exact (assemble_decSplit reg).trans (if_neg (by omega))
  · exact (assemble_decScale raw k).trans (if_neg (by omega))

end Sys2Proof
end

section
/-! Runs that feed bytes (R55, R62, R64): from a value of ACC, and from CRC.INIT. -/

namespace Sys2Proof.Machine

/-- Bytes fed to a value of ACC fold into it, with one Ack each. -/
theorem blockRun_map_crcByte (c : Config) (v : Half) (bytes : List Byte) :
    blockRun c (.value v) ((bytes.map Instr.crcByte).map encode) =
      (.value (bytes.foldl crcByte v), List.replicate bytes.length .ack) := by
  induction bytes generalizing v with
  | nil => rfl
  | cons b bytes ih =>
    rw [List.map_cons, List.map_cons, blockRun_cons, blockStep_encode, commandRule_crcByte_value, ih, List.foldl_cons,
      List.length_cons, List.replicate_succ]

/-- CRC.MSG, from any ACC, leaves the CRC of its bytes (R62). -/
theorem blockRun_crcMsg (c : Config) (a : Acc) (bytes : List Byte) :
    blockRun c a ((crcMsg bytes).map encode) =
      (.value (computeCrc bytes), List.replicate (bytes.length + 1) .ack) := by
  rw [crcMsg, List.map_cons, blockRun_cons, blockStep_encode, commandRule_crcInit, blockRun_map_crcByte,
    List.replicate_succ]
  rfl

/-- CRC.MSG and then CRC.READ, which answers the CRC (R73). -/
theorem blockRun_buildCommands (c : Config) (a : Acc) (bytes : List Byte) :
    blockRun c a ((buildCommands bytes).map encode) =
      (.value (computeCrc bytes), List.replicate (bytes.length + 1) .ack ++ [.val16 (computeCrc bytes)]) := by
  simp [buildCommands, blockRun_append, blockRun_crcMsg]

/-- CRC.REQ feeds the bytes of the request's message (R27, R34). -/
theorem crcReq_eq_buildCommands (address : Byte) (startReg count : Half) :
    crcReq address startReg count = buildCommands (requestMessage address startReg count) := rfl

/-- CRC.HALF feeds the two bytes of the big-endian order (R31). -/
theorem crcHalf_eq_map_crcByte (v : Half) : crcHalf v = (beBytes v).map .crcByte := rfl

/-- Settles O7. -/
theorem pseudoInstructionsFeedFieldsHighByteFirst : Obligations.PseudoInstructionsFeedFieldsHighByteFirst := by
  unfold Obligations.PseudoInstructionsFeedFieldsHighByteFirst
  refine ⟨fun address startReg count s => ⟨_, runInstrs_eq_blockRun _ s, ?_⟩, fun v a s hacc => ?_⟩
  · rw [crcReq_eq_buildCommands, blockRun_buildCommands, List.append_assoc]
    exact ⟨rfl, rfl⟩
  · rw [runInstrs_eq_blockRun, hacc, crcHalf_eq_map_crcByte, blockRun_map_crcByte]
    rfl

end Sys2Proof.Machine
end

section
/-! One iteration of the algorithm (R60): it is linear, it only shifts while the low bits are 0, and it loses nothing. -/

namespace Sys2Proof.Machine

theorem ushiftRight_one_eq_append (a : Half) : a >>> 1 = 0#1 ++ a.extractLsb' 1 15 :=
  BitVec.ushiftRight_eq_extractLsb'_of_lt (by decide)

theorem crcBit_of_low_set {a : Half} (h : a.getLsbD 0 = true) : crcBit a = a >>> 1 ^^^ crcPoly := if_pos h

theorem crcBit_of_low_clear {a : Half} (h : a.getLsbD 0 = false) : crcBit a = a >>> 1 := if_neg (ne_true_of_eq_false h)

/-- The shift brings a zero in at bit 15 and the polynomial has a one there, so the bit tested comes out at bit 15. -/
theorem crcBit_getLsbD_last (a : Half) : (crcBit a).getLsbD 15 = a.getLsbD 0 := by
  cases h : a.getLsbD 0 with
  | true => simp [crcBit_of_low_set h, crcPoly]
  | false => simp [crcBit_of_low_clear h]

/-- Both the test of the low bit and the shift go through XOR, and two polynomials cancel. -/
theorem crcBit_xor (a b : Half) : crcBit (a ^^^ b) = crcBit a ^^^ crcBit b := by
  have hlow : (a ^^^ b).getLsbD 0 = (a.getLsbD 0 ^^ b.getLsbD 0) := BitVec.getLsbD_xor
  have hshift : (a ^^^ b) >>> 1 = a >>> 1 ^^^ b >>> 1 := BitVec.ushiftRight_xor_distrib a b 1
  cases ha : a.getLsbD 0 <;> cases hb : b.getLsbD 0 <;> rw [ha, hb] at hlow
  · rw [crcBit_of_low_clear ha, crcBit_of_low_clear hb, crcBit_of_low_clear hlow, hshift]
  · rw [crcBit_of_low_clear ha, crcBit_of_low_set hb, crcBit_of_low_set hlow, hshift, BitVec.xor_assoc]
  · rw [crcBit_of_low_set ha, crcBit_of_low_clear hb, crcBit_of_low_set hlow, hshift]
    ac_rfl
  · rw [crcBit_of_low_set ha, crcBit_of_low_set hb, crcBit_of_low_clear hlow, hshift, BitVec.xor_comm (b >>> 1),
      BitVec.xor_assoc, ← BitVec.xor_assoc crcPoly, BitVec.xor_self, BitVec.zero_xor]

/-- By linearity it is enough that only 0 goes to 0: then bit 0 was 0, and the shift keeps the other bits. -/
theorem crcBit_injective : Function.Injective crcBit := by
  have hkernel : ∀ a, crcBit a = 0#16 → a = 0#16 := by
    intro a ha
    have hlow : a.getLsbD 0 = false := by rw [← crcBit_getLsbD_last, ha]; rfl
    rw [crcBit_of_low_clear hlow] at ha
    refine BitVec.eq_of_getLsbD_eq fun i hi => ?_
    cases i with
    | zero => exact hlow
    | succ i => simpa [Nat.add_comm] using congrArg (·.getLsbD i) ha
  intro a b hab
  rw [← BitVec.xor_eq_zero_iff]
  exact hkernel _ (by rw [crcBit_xor, hab, BitVec.xor_self])

theorem crcBit_bijective : Function.Bijective crcBit := Finite.injective_iff_bijective.1 crcBit_injective

theorem crcBit_iterate_xor (n : Nat) (a b : Half) : crcBit^[n] (a ^^^ b) = crcBit^[n] a ^^^ crcBit^[n] b := by
  induction n with
  | zero => rfl
  | succ n ih => simp only [Function.iterate_succ_apply', ih, crcBit_xor]

/-- While the iterations see low bits of 0 they only shift. -/
theorem crcBit_iterate_of_low_clear {n : Nat} {a : Half} (h : ∀ i < n, a.getLsbD i = false) : crcBit^[n] a = a >>> n := by
  induction n with
  | zero => simp
  | succ n ih =>
    have hlow : (a >>> n).getLsbD 0 = false := by simpa using h n (Nat.lt_succ_self n)
    rw [Function.iterate_succ_apply', ih fun i hi => h i (by omega), crcBit_of_low_clear hlow, BitVec.shiftRight_add]

/-- Settles O8. -/
theorem crcBitIsOneIteration : Obligations.CrcBitIsOneIteration := by
  unfold Obligations.CrcBitIsOneIteration
  refine ⟨fun a => ?_, crcBit_getLsbD_last, by decide⟩
  rw [← ushiftRight_one_eq_append, crcBit, crcPoly]

end Sys2Proof.Machine
end

section
/-! One byte (R61, R64, R72): its eight iterations, the table-driven form, and what a byte equal to the low byte leaves. -/

namespace Sys2Proof.Machine

@[simp] theorem highByte_append (hi lo : Byte) : highByte (hi ++ lo) = hi := extract_append_high hi lo

@[simp] theorem lowByte_append (hi lo : Byte) : lowByte (hi ++ lo) = lo := extract_append_low hi lo

theorem zext16_eq_append (b : Byte) : zext16 b = 0#8 ++ b := BitVec.setWidth_eq_append (by decide)

theorem ushiftRight_eight (a : Half) : a >>> 8 = zext16 (highByte a) :=
  (BitVec.ushiftRight_eq_extractLsb'_of_lt (by decide)).trans (zext16_eq_append _).symm

/-- The byte goes into the low byte alone (R61). -/
theorem xor_zext16 (a : Half) (b : Byte) : a ^^^ zext16 b = highByte a ++ (lowByte a ^^^ b) := by
  conv_lhs => rw [← highByte_append_lowByte a, zext16_eq_append, BitVec.xor_append, BitVec.xor_zero]

theorem crcByte_eq_iterate (a : Half) (b : Byte) : crcByte a b = crcBit^[8] (a ^^^ zext16 b) := rfl

/-- Settles O9. -/
theorem crcByteIsEightIterations : Obligations.CrcByteIsEightIterations := by
  unfold Obligations.CrcByteIsEightIterations
  refine ⟨fun a b => ?_, by decide⟩
  rw [crcByte_eq_iterate, xor_zext16]

theorem append_zero_getLsbD (b : Byte) {i : Nat} (hi : i < 8) : (b ++ 0#8).getLsbD i = false :=
  BitVec.getLsbD_append.trans (by simp [hi])

/-- With a low byte of 0 the iterations only shift. -/
theorem crcBit_iterate_append_zero {n : Nat} (hn : n ≤ 8) (b : Byte) : crcBit^[n] (b ++ 0#8) = (b ++ 0#8) >>> n :=
  crcBit_iterate_of_low_clear fun _ hi => append_zero_getLsbD b (hi.trans_le hn)

/-- The iterations take the two bytes apart: the high one is shifted down, the low one looked up in the table (R72). -/
theorem crcByteByTable_eq_crcByte (a : Half) (b : Byte) : crcByteByTable a b = crcByte a b := by
  have hsplit : highByte a ++ (lowByte a ^^^ b) = (highByte a ++ 0#8) ^^^ zext16 (lowByte a ^^^ b) := by
    rw [zext16_eq_append, BitVec.xor_append, BitVec.xor_zero, BitVec.zero_xor]
  symm
  calc crcByte a b
    _ = crcBit^[8] (highByte a ++ 0#8) ^^^ crcBit^[8] (zext16 (lowByte a ^^^ b)) := by
      rw [crcByte_eq_iterate, xor_zext16, hsplit, crcBit_iterate_xor]
    _ = a >>> 8 ^^^ crcByte 0#16 (lowByte a ^^^ b) := by
      rw [crcBit_iterate_append_zero (le_refl 8), ushiftRight_eight, ushiftRight_eight, highByte_append, crcByte_eq_iterate,
        BitVec.zero_xor]

/-- Settles O13. -/
theorem tableDrivenFormEqualsTheBitAlgorithm : Obligations.TableDrivenFormEqualsTheBitAlgorithm := by
  unfold Obligations.TableDrivenFormEqualsTheBitAlgorithm
  exact crcByteByTable_eq_crcByte

theorem crcByte_bijective (b : Byte) : Function.Bijective fun a => crcByte a b :=
  (crcBit_bijective.iterate 8).comp (Function.Involutive.bijective fun a => xor_cancel_right a (zext16 b))

/-- A byte equal to the low byte leaves the high byte (R64). -/
@[simp] theorem crcByte_lowByte (a : Half) : crcByte a (lowByte a) = zext16 (highByte a) := by
  rw [crcByte_eq_iterate, xor_zext16, BitVec.xor_self, crcBit_iterate_append_zero (le_refl 8), ushiftRight_eight,
    highByte_append]

/-- Only the byte itself, as a 16-bit value, is taken to 0 by the byte. -/
theorem crcByte_eq_zero_iff {a : Half} {b : Byte} : crcByte a b = 0#16 ↔ a = zext16 b := by
  have hzero : crcByte (zext16 b) b = 0#16 := by rw [crcByte_eq_iterate, BitVec.xor_self]; rfl
  rw [← hzero]
  exact (crcByte_bijective b).injective.eq_iff

end Sys2Proof.Machine
end

section
/-! The contract `compute_crc` (R62, R69) and the residue of a trailer (R70). -/

namespace Sys2Proof.Machine

theorem computeCrc_append (bytes more : List Byte) : computeCrc (bytes ++ more) = more.foldl crcByte (computeCrc bytes) :=
  List.foldl_append

/-- The low byte of the CRC leaves its high byte, and the high byte then leaves 0 (R70). -/
theorem computeCrc_append_lowByte (m : List Byte) :
    computeCrc (m ++ [lowByte (computeCrc m)]) = zext16 (highByte (computeCrc m)) := by
  rw [computeCrc_append_singleton, crcByte_lowByte]

/-- Two bytes leave 0 exactly when they are the CRC, low byte first (R70): the second must meet its own zero extension, and
only the accumulator made of the two bytes comes there. -/
theorem computeCrc_append_pair_eq_zero_iff (m : List Byte) (t0 t1 : Byte) :
    computeCrc (m ++ [t0, t1]) = 0#16 ↔ computeCrc m = t1 ++ t0 := by
  have hpass : crcByte (t1 ++ t0) t0 = zext16 t1 := by simpa using crcByte_lowByte (t1 ++ t0)
  calc computeCrc (m ++ [t0, t1]) = 0#16
    _ ↔ crcByte (crcByte (computeCrc m) t0) t1 = 0#16 := by rw [computeCrc_append]; rfl
    _ ↔ crcByte (computeCrc m) t0 = crcByte (t1 ++ t0) t0 := by rw [crcByte_eq_zero_iff, hpass]
    _ ↔ computeCrc m = t1 ++ t0 := (crcByte_bijective t0).injective.eq_iff

@[simp] theorem computeCrc_sealFrame (m : List Byte) : computeCrc (sealFrame m) = 0#16 :=
  (computeCrc_append_pair_eq_zero_iff m _ _).2 (highByte_append_lowByte _).symm

/-- Settles O12. -/
theorem residueIsZeroExactlyForTheRightTrailer : Obligations.ResidueIsZeroExactlyForTheRightTrailer := by
  unfold Obligations.ResidueIsZeroExactlyForTheRightTrailer
  refine ⟨computeCrc_append_lowByte, computeCrc_sealFrame, fun m s => ⟨_, runInstrs_eq_blockRun _ s, ?_⟩,
    fun m t0 t1 h => ?_, crcBit_bijective, crcByte_bijective⟩
  · rw [blockRun_crcMsg, computeCrc_sealFrame]
  · rw [computeCrc_append_pair_eq_zero_iff] at h
    rw [h, lowByte_append, highByte_append]
    exact ⟨rfl, rfl⟩

/-- Settles O10. -/
theorem computeCrcIsTheFoldFromAllOnes : Obligations.ComputeCrcIsTheFoldFromAllOnes := by
  unfold Obligations.ComputeCrcIsTheFoldFromAllOnes
  exact ⟨rfl, computeCrc_append_singleton, fun _ => rfl⟩

/-- Settles O11: the two bytes 0x00 and 0xFF, each alone as a message, do not commute. -/
theorem crcIsOrderSensitive : Obligations.CrcIsOrderSensitive := by
  unfold Obligations.CrcIsOrderSensitive
  exact ⟨by decide +kernel, by decide +kernel, [0x00#8], [0xFF#8], by decide +kernel⟩

end Sys2Proof.Machine
end

section
/-! The CRC commands one at a time (R63 to R66): their words as numbers, and their meanings in the machine. -/

namespace Sys2Proof.Machine

theorem toNat_append_eq_add {m n : Nat} (x : BitVec m) (y : BitVec n) : (x ++ y).toNat = x.toNat * 2 ^ n + y.toNat := by
  rw [BitVec.toNat_append, ← Nat.shiftLeft_add_eq_or_of_lt y.isLt, Nat.shiftLeft_eq]

/-- The word of a command as a number: the opcode at bit 32 and the operand field (R45). -/
theorem encode_toNat {i : Instr} {op n w : Nat} (hop : i.opcode.row.op.toNat = op) (harg : (encodeArg i).toNat = n)
    (hw : op * 2 ^ 32 + n = w) : (encode i).toNat = w := by
  rw [encode, toNat_append_eq_add, hop, harg, hw]

theorem encode_crcByte_toNat (b : Byte) : (encode (.crcByte b)).toNat = 0x0100000000 + b.toNat := by
  have harg : (encodeArg (.crcByte b)).toNat = b.toNat := (toNat_append_eq_add 0#24 b).trans (by simp)
  exact encode_toNat (op := 0x01) rfl harg (by omega)

theorem encode_crcChk_toNat (lo hi : Byte) :
    (encode (.crcChk lo hi)).toNat = 0x0300000000 + hi.toNat * 0x100 + lo.toNat := by
  have harg : (encodeArg (.crcChk lo hi)).toNat = hi.toNat * 0x100 + lo.toNat :=
    (toNat_append_eq_add 0#16 (hi ++ lo)).trans (by simpa using toNat_append_eq_add hi lo)
  exact encode_toNat (op := 0x03) rfl harg (by omega)

theorem eq_append_iff_toNat (a : Half) (hi lo : Byte) : a = hi ++ lo ↔ a.toNat = hi.toNat * 0x100 + lo.toNat := by
  rw [← BitVec.toNat_inj, toNat_append_eq_add]
  rfl

/-- A value is its own byte swap when its two bytes are equal. -/
theorem eq_swap_iff (a : Half) : a = lowByte a ++ highByte a ↔ highByte a = lowByte a := by
  constructor
  · intro h
    simpa using congrArg highByte h
  · intro h
    conv_lhs => rw [← highByte_append_lowByte a]
    rw [h]

theorem step_offer_encode (i : Instr) (s : State) : step (s.offer (.command (encode i))) = exec i s := by
  rw [step_offer_command, execute_ok (decode_encode i)]

theorem exec_crcInit (s : State) :
    exec .crcInit s = .next { s with acc := .value 0xFFFF#16, responses := s.responses ++ [.ack] } :=
  exec_eq_commandRule .crcInit s

theorem exec_crcByte_value (b : Byte) {a : Half} {s : State} (h : s.acc = .value a) :
    exec (.crcByte b) s = .next { s with acc := .value (crcByte a b), responses := s.responses ++ [.ack] } := by
  rw [exec_eq_commandRule, h, commandRule_crcByte_value]

theorem exec_crcRead_value {a : Half} {s : State} (h : s.acc = .value a) :
    exec .crcRead s = .next { s with responses := s.responses ++ [.val16 a] } := by
  rw [exec_eq_commandRule, h, commandRule_crcRead_value, ← h]

theorem exec_crcChk_value (lo hi : Byte) {a : Half} {s : State} (h : s.acc = .value a) :
    exec (.crcChk lo hi) s = .next { s with responses := s.responses ++ [.bit (decide (a = hi ++ lo))] } := by
  rw [exec_eq_commandRule, h, commandRule_crcChk_value, ← h]

/-- A command whose rule faults while ACC is UNWRITTEN answers the fault and changes nothing (R103). -/
theorem exec_unwritten {i : Instr} (hi : commandRule Config.block i .unwritten = (.unwritten, .fault .accUninit)) {s : State}
    (h : s.acc = .unwritten) : exec i s = .next { s with responses := s.responses ++ [.fault .accUninit] } := by
  rw [exec_eq_commandRule, h, hi, ← h]

/-- A word with a bit in a reserved field of its opcode's format is illegal from every state (R49). -/
theorem step_of_reserved_bit {o : Opcode} {arg : Word} (h : ¬ o.row.format.ReservedFieldZero arg) (s : State) :
    step (s.offer (.command (o.row.op ++ arg))) = .next { s with responses := s.responses ++ [.fault .illegal] } :=
  step_illegal (decode_of_reserved_bit h) s

/-- Settles O14. -/
theorem crcInitStartsANewMessage : Obligations.CrcInitStartsANewMessage := by
  unfold Obligations.CrcInitStartsANewMessage
  refine ⟨rfl, exec_crcInit, fun s t u ht hu => ?_, fun arg s h => step_of_reserved_bit (o := .crcInit) h s⟩
  rw [exec_crcInit] at ht hu
  cases ht
  cases hu
  rfl

/-- Settles O15. -/
theorem crcByteAbsorbsOneByte : Obligations.CrcByteAbsorbsOneByte := by
  unfold Obligations.CrcByteAbsorbsOneByte
  refine ⟨encode_crcByte_toNat, fun b a s h => exec_crcByte_value b h, fun b s h => exec_unwritten rfl h,
    fun arg s h => step_of_reserved_bit (o := .crcByte) h s, fun a => crcByte_eq_zero_iff, crcByte_lowByte, fun a n hn => ?_,
    by decide, by decide⟩
  · rw [xor_zext16, BitVec.xor_self, crcBit_iterate_append_zero hn.le, BitVec.getLsbD_ushiftRight]
    exact append_zero_getLsbD _ hn

/-- Settles O16: the long run is CRC.MSG of the first bytes, a read, which leaves ACC, the other bytes, and a read. -/
theorem crcReadAnswersTheAccumulator : Obligations.CrcReadAnswersTheAccumulator := by
  unfold Obligations.CrcReadAnswersTheAccumulator
  refine ⟨rfl, fun a s h => exec_crcRead_value h, fun s h => exec_unwritten rfl h,
    fun arg s h => step_of_reserved_bit (o := .crcRead) h s,
    fun s => ?_, fun m rest s => ⟨_, runInstrs_eq_blockRun _ s, ?_⟩, by decide +kernel⟩
  · rw [runInstrs_eq_blockRun]
    rfl
  · simp [-List.map_map, blockRun_append, blockRun_crcMsg, blockRun_map_crcByte, computeCrc_append]

/-- Settles O17. -/
theorem crcChkComparesTheLittleEndianTrailer : Obligations.CrcChkComparesTheLittleEndianTrailer := by
  unfold Obligations.CrcChkComparesTheLittleEndianTrailer
  refine ⟨encode_crcChk_toNat, fun lo hi a s h => ?_, fun lo hi s h => exec_unwritten rfl h,
    fun arg s h => step_of_reserved_bit (o := .crcChk) h s, fun a s h => ?_,
    fun s h => ⟨?_, exec_crcChk_value 0x77#8 0x93#8 h⟩, by decide +kernel⟩
  · simp only [exec_crcChk_value lo hi h, eq_append_iff_toNat]
  · rw [exec_crcChk_value _ _ h, decide_eq_decide.2 (eq_swap_iff a)]
  · exact (step_offer_encode (.crcChk 0x93#8 0x77#8) s).trans (exec_crcChk_value 0x93#8 0x77#8 h)

end Sys2Proof.Machine
end

section
/-! Runs after CRC.INIT (R67, R68, R70, R73, R120). -/

namespace Sys2Proof.Machine

theorem fedByte_crcByte {w : CmdWord} {b : Byte} (hw : decode w = .ok (.crcByte b)) : fedByte w = some b := by
  simp [fedByte, hw]

theorem fedByte_of_not_crcByte {w : CmdWord} (hw : ∀ b, decode w ≠ .ok (.crcByte b)) : fedByte w = none := by
  simp [fedByte]

/-- A word that is no CRC.INIT adds the byte it feeds, if it feeds one. -/
theorem fedAfter_of_not_crcInit {w : CmdWord} (hinit : decode w ≠ .ok .crcInit) (bytes : List Byte) :
    fedAfter (some (.command w)) (some bytes) = some (bytes ++ (fedByte w).toList) := by
  by_cases hbyte : ∃ b, decode w = .ok (.crcByte b)
  · obtain ⟨b, hw⟩ := hbyte
    rw [fedAfter_crcByte hw, fedByte_crcByte hw]
    rfl
  · rw [not_exists] at hbyte
    rw [fedAfter_of_not_writer hinit hbyte, fedByte_of_not_crcByte hbyte, Option.toList_none, List.append_nil]

/-- R13 over a run without CRC.INIT: ACC stays the CRC of the bytes fed, whatever else stands between them. -/
theorem blockRun_of_no_crcInit (c : Config) {ws : List CmdWord} (h : ∀ w ∈ ws, decode w ≠ .ok .crcInit)
    (bytes : List Byte) :
    (blockRun c (.value (computeCrc bytes)) ws).1 = .value (computeCrc (bytes ++ ws.filterMap fedByte)) := by
  induction ws generalizing bytes with
  | nil => simp
  | cons w ws ih =>
    obtain ⟨hw, hws⟩ := List.forall_mem_cons.1 h
    have hstep : (blockStep c (.value (computeCrc bytes)) w).1 = .value (computeCrc (bytes ++ (fedByte w).toList)) := by
      rw [← accHolds_some, ← fedAfter_of_not_crcInit hw]
      exact accHolds_blockStep c w rfl
    have hfed : (w :: ws).filterMap fedByte = (fedByte w).toList ++ ws.filterMap fedByte := by
      cases hb : fedByte w <;> simp [hb]
    rw [blockRun_cons, hstep, ih hws, hfed, List.append_assoc]

/-- Settles O19: CRC.INIT leaves the CRC of the empty sequence, and the words add theirs. -/
theorem streamingEqualsTheContract : Obligations.StreamingEqualsTheContract := by
  unfold Obligations.StreamingEqualsTheContract
  intro s ws h
  have hacc : (blockRun Config.block s.acc (encode .crcInit :: ws)).1 = .value (computeCrc (ws.filterMap fedByte)) := by
    rw [blockRun_cons, blockStep_encode]
    exact blockRun_of_no_crcInit Config.block h []
  exact ⟨_, runWords_eq_blockRun _ s, hacc, exec_crcRead_value hacc⟩

/-- With a value in ACC no command faults (R68, R100). -/
theorem commandRule_value_isFault (c : Config) (i : Instr) (v : Half) : (commandRule c i (.value v)).2.isFault = false := by
  cases i <;> rfl

/-- Nor does a run of commands, since none makes ACC UNWRITTEN. -/
theorem blockRun_encode_isFault (c : Config) {a : Acc} (h : a ≠ .unwritten) (is : List Instr) :
    ∀ r ∈ (blockRun c a (is.map encode)).2, r.isFault = false := by
  induction is generalizing a with
  | nil => simp
  | cons i is ih =>
    rw [List.map_cons, blockRun_cons, List.forall_mem_cons]
    refine ⟨?_, ih (blockStep_keeps_written h)⟩
    cases a with
    | unwritten => exact absurd rfl h
    | value v => rw [blockStep_encode, commandRule_value_isFault]

/-- Settles O42: CRC.INIT gives ACC a value and answers Ack. -/
theorem runOfCommandsAfterInitIsClean : Obligations.RunOfCommandsAfterInitIsClean := by
  unfold Obligations.RunOfCommandsAfterInitIsClean
  intro is s hs
  have hresponses : ∀ r ∈ (blockRun Config.block s.acc ((.crcInit :: is).map encode)).2, r.isFault = false := by
    rw [List.map_cons, blockRun_cons, blockStep_encode, commandRule_crcInit, List.forall_mem_cons]
    exact ⟨rfl, blockRun_encode_isFault Config.block (by simp) is⟩
  refine ⟨_, runInstrs_eq_blockRun _ s, ?_⟩
  rw [State.clean, List.all_append, Bool.and_eq_true]
  exact ⟨hs, List.all_eq_true.2 fun r hr => by rw [hresponses r hr]; rfl⟩

/-- CRC.MSG and then CRC.CHK, which answers whether the CRC is the one given (R73). -/
theorem blockRun_crcMsg_crcChk (c : Config) (a : Acc) (bytes : List Byte) (lo hi : Byte) :
    blockRun c a ((crcMsg bytes ++ [Instr.crcChk lo hi]).map encode) =
      (.value (computeCrc bytes),
        List.replicate (bytes.length + 1) .ack ++ [.bit (decide (computeCrc bytes = hi ++ lo))]) := by
  simp [blockRun_append, blockRun_crcMsg]

theorem runInstrs_buildCommands_getLast? (bytes : List Byte) (s : State) :
    ∃ t, runInstrs (buildCommands bytes) s = .next t ∧ t.responses.getLast? = some (.val16 (computeCrc bytes)) :=
  ⟨_, runInstrs_eq_blockRun _ s, by rw [blockRun_buildCommands, ← List.append_assoc, List.getLast?_concat]⟩

theorem runInstrs_crcMsg_crcChk_getLast? (bytes : List Byte) (lo hi : Byte) (s : State) :
    ∃ t, runInstrs (crcMsg bytes ++ [.crcChk lo hi]) s = .next t ∧
      t.responses.getLast? = some (.bit (decide (computeCrc bytes = hi ++ lo))) :=
  ⟨_, runInstrs_eq_blockRun _ s, by rw [blockRun_crcMsg_crcChk, ← List.append_assoc, List.getLast?_concat]⟩

/-- Settles O23: a fed frame leaves 0, which is the CRC only when the trailer is two bytes of 0. -/
theorem fedTrailerReadsZeroAndChecksFalse : Obligations.FedTrailerReadsZeroAndChecksFalse := by
  unfold Obligations.FedTrailerReadsZeroAndChecksFalse
  intro m s
  constructor
  · simpa [buildCommands] using runInstrs_buildCommands_getLast? (sealFrame m) s
  · simpa [eq_comm] using
      runInstrs_crcMsg_crcChk_getLast? (sealFrame m) (lowByte (computeCrc m)) (highByte (computeCrc m)) s

/-- A frame of at least two bytes is a message and a trailer. -/
theorem exists_append_pair {f : List Byte} (h : 2 ≤ f.length) : ∃ m t0 t1, f = m ++ [t0, t1] := by
  obtain ⟨t0, t1, hdrop⟩ := List.length_eq_two.1 (show (f.drop (f.length - 2)).length = 2 by simp; omega)
  exact ⟨f.take (f.length - 2), t0, t1, by rw [← hdrop, List.take_append_drop]⟩

theorem validateCommands_append_pair (m : List Byte) (t0 t1 : Byte) :
    validateCommands (m ++ [t0, t1]) = some (crcMsg m ++ [.crcChk t0 t1]) := by
  have hlow : byteAt (m ++ [t0, t1]) (m.length + 0) = t0 := byteAt_append_right m [t0, t1] 0
  have hhigh : byteAt (m ++ [t0, t1]) (m.length + 1) = t1 := byteAt_append_right m [t0, t1] 1
  simpa [validateCommands] using ⟨hlow, hhigh⟩

/-- Settles O52: the two sequences end in the answers of `runInstrs_buildCommands_getLast?` and
`runInstrs_crcMsg_crcChk_getLast?`. -/
theorem buildAndValidateSequencesAnswerSealAndCheck : Obligations.BuildAndValidateSequencesAnswerSealAndCheck := by
  unfold Obligations.BuildAndValidateSequencesAnswerSealAndCheck
  constructor
  · intro m s
    obtain ⟨t, hrun, hlast⟩ := runInstrs_buildCommands_getLast? m s
    exact ⟨t, computeCrc m, hrun, hlast, rfl⟩
  · intro f s hf
    obtain ⟨m, t0, t1, rfl⟩ := exists_append_pair hf
    obtain ⟨t, hrun, hlast⟩ := runInstrs_crcMsg_crcChk_getLast? m t0 t1 s
    exact ⟨_, t, _, validateCommands_append_pair m t0 t1, hrun, hlast, check_append_pair m t0 t1⟩

end Sys2Proof.Machine
end

section
/-! The two readings of a pattern (R7, R80, R81), and the bytes of a register value (R82). -/

namespace Sys2Proof.Machine

/-- `sint` is the two's-complement reading of the library (R7). -/
theorem sint_eq_toInt {w : Nat} (v : BitVec w) : sint v = v.toInt := by
  rw [sint, BitVec.toInt_eq_msb_cond, Nat.cast_pow]
  rfl

theorem combine32_unsigned (high low : Half) : combine32 high low false = ((high ++ low).toNat : Int) := rfl

theorem combine32_signed (high low : Half) : combine32 high low true = (high ++ low).toInt := sint_eq_toInt (high ++ low)

/-- The sign of the pattern is that of its high half (R80). -/
theorem msb_append_half (high low : Half) : (high ++ low).msb = high.getLsbD 15 := by
  rw [BitVec.msb_append, if_neg (by decide), BitVec.msb_eq_getLsbD_last]

theorem toNat_append_half (high low : Half) : (high ++ low).toNat = high.toNat * 65536 + low.toNat :=
  toNat_append_eq_add high low

/-- Only the high half carries the sign; the low half is read unsigned (R81). -/
theorem toInt_append_half (high low : Half) : (high ++ low).toInt = high.toInt * 65536 + (low.toNat : Int) := by
  rw [BitVec.toInt_append, if_neg (by decide), mul_comm]
  rfl

/-- Without the sign bit the two readings are one. -/
theorem combine32_eq_of_clear {high : Half} (h : high.getLsbD 15 = false) (low : Half) :
    combine32 high low false = combine32 high low true := by
  rw [combine32_unsigned, combine32_signed, BitVec.toInt_eq_toNat_of_msb ((msb_append_half high low).trans h)]

/-- With the sign bit the unsigned reading is the greater by 2^32. -/
theorem combine32_eq_add_of_set {high : Half} (h : high.getLsbD 15 = true) (low : Half) :
    combine32 high low false = combine32 high low true + 2 ^ 32 := by
  rw [combine32_unsigned, combine32_signed, BitVec.toInt_eq_msb_cond, if_pos ((msb_append_half high low).trans h)]
  exact (Int.sub_add_cancel _ _).symm

theorem combine32_ne_iff (high low : Half) :
    combine32 high low false ≠ combine32 high low true ↔ high.getLsbD 15 = true := by
  cases h : high.getLsbD 15 with
  | false => simp [combine32_eq_of_clear h]
  | true => simp [combine32_eq_add_of_set h]

/-- The low half has no part in the sign of the signed reading (R85). -/
theorem combine32_signed_neg_iff (high low : Half) : combine32 high low true < 0 ↔ high.getLsbD 15 = true := by
  rw [combine32_signed, ← msb_append_half high low, BitVec.msb_eq_toInt, decide_eq_true_iff]

/-- Settles O24. -/
theorem combinedPatternIsReadInTwoModes : Obligations.CombinedPatternIsReadInTwoModes := by
  unfold Obligations.CombinedPatternIsReadInTwoModes
  intro high low
  have hunsigned : (high ++ low).toNat < 2 ^ 32 := (high ++ low).isLt
  refine ⟨extract_append_high high low, extract_append_low high low, combine32_unsigned high low,
    combine32_signed high low, ?_, ?_, ?_, ?_, combine32_ne_iff high low, fun h => combine32_eq_add_of_set h low⟩
  · exact Int.natCast_nonneg _
  · rw [combine32_unsigned]
    omega
  · rw [combine32_signed]
    exact BitVec.le_toInt _
  · rw [combine32_signed]
    exact BitVec.toInt_le

/-- Settles O25. -/
theorem signedReadingIsSignedHighAboveUnsignedLow : Obligations.SignedReadingIsSignedHighAboveUnsignedLow := by
  unfold Obligations.SignedReadingIsSignedHighAboveUnsignedLow
  intro high low
  rw [sint_eq_toInt, sint_eq_toInt]
  exact ⟨toInt_append_half high low, toNat_append_half high low⟩

/-- A register value is its high byte above its low byte (R82). -/
theorem toNat_eq_highByte_lowByte (reg : Half) : reg.toNat = (highByte reg).toNat * 256 + (lowByte reg).toNat := by
  conv_lhs => rw [← highByte_append_lowByte reg]
  exact toNat_append_eq_add (highByte reg) (lowByte reg)

/-- Settles O26: the value is `256 * high + low` with `low < 256`, so the parts are its quotient and remainder. -/
theorem splitInvertsConcatenation : Obligations.SplitInvertsConcatenation := by
  unfold Obligations.SplitInvertsConcatenation
  refine ⟨fun reg => ⟨highByte_append_lowByte reg, ?_, ?_⟩,
    fun hi lo => Prod.ext (highByte_append hi lo) (lowByte_append hi lo)⟩
  all_goals
    have hvalue := toNat_eq_highByte_lowByte reg
    have hlow := (lowByte reg).isLt
    simp only [split8, uint]
    omega

end Sys2Proof.Machine
end

section
/-! The DEC commands one at a time (R84 to R88): their words as numbers, and their meanings in the machine. -/

namespace Sys2Proof.Machine

theorem encode_decCombu_toNat (high low : Half) :
    (encode (.decCombu high low)).toNat = 0x1000000000 + high.toNat * 0x10000 + low.toNat :=
  encode_toNat (op := 0x10) rfl (toNat_append_eq_add high low) (by omega)

theorem encode_decCombs_toNat (high low : Half) :
    (encode (.decCombs high low)).toNat = 0x1100000000 + high.toNat * 0x10000 + low.toNat :=
  encode_toNat (op := 0x11) rfl (toNat_append_eq_add high low) (by omega)

theorem encode_decSplit_toNat (reg : Half) : (encode (.decSplit reg)).toNat = 0x1200000000 + reg.toNat := by
  have harg : (encodeArg (.decSplit reg)).toNat = reg.toNat := (toNat_append_eq_add 0#16 reg).trans (by simp)
  exact encode_toNat (op := 0x12) rfl harg (by omega)

theorem encode_decScale_toNat (raw : Half) (k : BitVec 4) :
    (encode (.decScale raw k)).toNat = 0x1300000000 + k.toNat * 0x10000 + raw.toNat := by
  have harg : (encodeArg (.decScale raw k)).toNat = k.toNat * 0x10000 + raw.toNat :=
    (toNat_append_eq_add 0#12 (k ++ raw)).trans (by simpa using toNat_append_eq_add k raw)
  exact encode_toNat (op := 0x13) rfl harg (by omega)

theorem exec_decCombu (high low : Half) (s : State) : exec (.decCombu high low) s = .next
    { s with responses := s.responses ++ [.val32 (high ++ low) ((high ++ low).toNat : Int)] } :=
  exec_eq_commandRule (.decCombu high low) s

theorem exec_decCombs (high low : Half) (s : State) : exec (.decCombs high low) s = .next
    { s with responses := s.responses ++ [.val32 (high ++ low) (high ++ low).toInt] } := by
  rw [exec_eq_commandRule, commandRule_decCombs, sint_eq_toInt]

theorem exec_decSplit (reg : Half) (s : State) : exec (.decSplit reg) s = .next
    { s with responses := s.responses ++ [.pair8 (highByte reg) (lowByte reg)] } :=
  exec_eq_commandRule (.decSplit reg) s

theorem exec_decScale (raw : Half) (k : BitVec 4) (s : State) : exec (.decScale raw k) s = .next
    { s with responses := s.responses ++ [scaleResponse Config.block raw k] } :=
  exec_eq_commandRule (.decScale raw k) s

/-- A word without a bit in a reserved field of its opcode's format is executed (R53). -/
theorem step_of_reserved_zero {o : Opcode} {arg : Word} (h : o.row.format.ReservedFieldZero arg) (s : State) :
    step (s.offer (.command (o.row.op ++ arg))) = exec (operands arg o) s := by
  rw [step_offer_command, execute_ok (decode_of_reserved_zero h)]

/-- Format P reserves nothing: its two fields are the whole operand field (R46). -/
theorem extract_high_append_extract_low (arg : Word) : arg.extractLsb' 16 16 ++ arg.extractLsb' 0 16 = arg :=
  BitVec.extractLsb'_append_extractLsb' (w := 16) (len := 16)

/-- Every word with opcode 0x10 is DEC.COMBU (R84). -/
theorem step_decCombu_word (arg : Word) (s : State) : step (s.offer (.command (0x10#8 ++ arg))) = .next
    { s with responses := s.responses ++ [.val32 arg (arg.toNat : Int)] } := by
  refine (step_of_reserved_zero (o := .decCombu) trivial s).trans ((exec_decCombu _ _ s).trans ?_)
  rw [extract_high_append_extract_low]

/-- Every word with opcode 0x11 is DEC.COMBS (R85). -/
theorem step_decCombs_word (arg : Word) (s : State) : step (s.offer (.command (0x11#8 ++ arg))) = .next
    { s with responses := s.responses ++ [.val32 arg arg.toInt] } := by
  refine (step_of_reserved_zero (o := .decCombs) trivial s).trans ((exec_decCombs _ _ s).trans ?_)
  rw [extract_high_append_extract_low]

/-- Settles O27. -/
theorem combuAnswersTheUnsignedReading : Obligations.CombuAnswersTheUnsignedReading := by
  unfold Obligations.CombuAnswersTheUnsignedReading
  refine ⟨encode_decCombu_toNat, fun high low s => ?_, step_decCombu_word, by decide⟩
  rw [exec_decCombu, toNat_append_half]

/-- Settles O28. -/
theorem combsAnswersTheSignedReading : Obligations.CombsAnswersTheSignedReading := by
  unfold Obligations.CombsAnswersTheSignedReading
  refine ⟨encode_decCombs_toNat, fun high low s => ?_, step_decCombs_word, combine32_signed_neg_iff, by decide⟩
  rw [exec_decCombs, toInt_append_half]

/-- Settles O29. -/
theorem splitAnswersHighByteThenLowByte : Obligations.SplitAnswersHighByteThenLowByte := by
  unfold Obligations.SplitAnswersHighByteThenLowByte
  exact ⟨encode_decSplit_toNat, exec_decSplit, fun arg s h => step_of_reserved_bit (o := .decSplit) h s, by decide⟩

theorem blockStep_decScale (c : Config) (a : Acc) (raw : Half) (k : BitVec 4) :
    blockStep c a (encode (.decScale raw k)) = (a, .scalar (c.num.mul (c.num.ofNat raw) (c.res k.toFin))) := by
  rw [blockStep_encode, commandRule_decScale]

/-- Settles O30: the response is one product under every configuration, and P2 to P5 (R93) say what an admissible one makes of
it. -/
theorem scaleAnswersTheProductWithTheSelectedResolution :
    Obligations.ScaleAnswersTheProductWithTheSelectedResolution := by
  unfold Obligations.ScaleAnswersTheProductWithTheSelectedResolution
  refine ⟨encode_decScale_toNat, exec_decScale, fun arg s h => step_of_reserved_bit (o := .decScale) h s,
    blockStep_decScale, fun c rd a hc => ⟨fun k => ?_, fun raw k => ?_, ?_, ?_, fun hres => ?_⟩⟩
  · exact ⟨_, blockStep_decScale c a _ k, hc.num.mul_zero _ (hc.res_finite _)⟩
  · exact ⟨_, blockStep_decScale c a raw k, hc.product_finite _ _⟩
  · exact hc.num.ofNat_exact 0xFFFF#16
  · exact hc.num.ofNat_exact 0x8000#16
  · have hproduct : c.num.mul (c.num.ofNat 100#16) (c.res 0) = rd.one := by rw [hres, hc.num.scale_100]
    exact (blockStep_decScale c a 100#16 0#4).trans (by rw [← hproduct]; rfl)

/-- Settles O31: the rule of a DEC command gives one response and leaves ACC, whatever ACC is. -/
theorem decCommandsArePureFunctions : Obligations.DecCommandsArePureFunctions := by
  unfold Obligations.DecCommandsArePureFunctions
  intro i hdec
  obtain ⟨r, hfault, hr⟩ := commandRule_of_isDec Config.block hdec
  exact ⟨r, hfault, fun s => by rw [exec_eq_commandRule, hr]⟩

/-- The mask of the low byte leaves it, widened with zeros (R7). -/
theorem and_low_mask (reg : Half) : reg &&& 0x00FF#16 = zext16 (lowByte reg) := by
  have hmask : 0x00FF#16 = 0#8 ++ BitVec.allOnes 8 := rfl
  conv_lhs => rw [← highByte_append_lowByte reg, hmask, BitVec.and_append, BitVec.and_zero, BitVec.and_allOnes]
  exact (zext16_eq_append _).symm

/-- DEC.PF (R55, R90): the split of a register and the two scaled bytes. -/
theorem blockRun_decSplit_pfScale (c : Config) (a : Acc) (reg : Half) (kHi kLo : BitVec 4) :
    blockRun c a ((.decSplit reg :: pfScale (highByte reg) (lowByte reg) kHi kLo).map encode) =
      (a, [.pair8 (highByte reg) (lowByte reg), scaleResponse c (reg >>> 8) kHi,
        scaleResponse c (reg &&& 0x00FF#16) kLo]) := by
  rw [ushiftRight_eight, and_low_mask]
  simp [pfScale, scaleResponse_eq, highByte, lowByte]

/-- Settles O33. -/
theorem powerFactorScalesEachByteByItsOwnResolution : Obligations.PowerFactorScalesEachByteByItsOwnResolution := by
  unfold Obligations.PowerFactorScalesEachByteByItsOwnResolution
  refine ⟨blockRun_decSplit_pfScale, fun reg kHi kLo s => ?_⟩
  rw [runInstrs_eq_blockRun, blockRun_decSplit_pfScale]

end Sys2Proof.Machine
end

section
/-! The example instances of NUM (R93): binary32 gives the integers and zero exactly, and the two differ at a product. -/

namespace Sys2Proof.Machine

theorem pow2_eq_zpow (e : Int) : pow2 e = (2 : Rat) ^ e := by
  cases e with
  | ofNat n => simp [pow2]
  | negSucc n => simp [pow2, zpow_negSucc]

/-- A positive normal pattern put together from its fields: it is finite, and is its significand at its exponent. -/
theorem value32_ofNat_normal {e f : Nat} (hzero : 0 < e) (he : e < 255) (hf : f < 8388608) :
    isFinite32 (BitVec.ofNat 32 (e * 8388608 + f)) = true ∧
    value32 (BitVec.ofNat 32 (e * 8388608 + f)) = ((8388608 + f : Nat) : Rat) * 2 ^ ((e : Int) - 150) := by
  obtain ⟨hexponent, hfraction, hsign⟩ := fields32_ofNat he hf
  constructor
  · simpa [isFinite32, hexponent] using he.ne
  · rw [value32, hsign, if_neg Bool.false_ne_true, magnitude32, hexponent, hfraction, if_neg hzero.ne', pow2_eq_zpow]
    norm_num

/-- The leading one of an integer below 2^16 becomes the implicit bit, and its other bits fit the fraction. -/
theorem ofNat32_eq_normal {n : Half} (h : n ≠ 0#16) :
    ∃ k f, k < 16 ∧ f < 8388608 ∧ n.toNat * 2 ^ (23 - k) = 8388608 + f ∧
      ofNat32 n = BitVec.ofNat 32 ((k + 127) * 8388608 + f) := by
  have hpos : n.toNat ≠ 0 := fun h0 => h (BitVec.eq_of_toNat_eq h0)
  have hk : n.toNat.log2 < 16 := (Nat.log2_lt hpos).2 n.isLt
  have hplace : 2 ^ n.toNat.log2 * 2 ^ (23 - n.toNat.log2) = 8388608 := by
    rw [← pow_add, Nat.add_sub_cancel' (by omega)]
    rfl
  have hleading : 8388608 ≤ n.toNat * 2 ^ (23 - n.toNat.log2) :=
    hplace ▸ Nat.mul_le_mul_right _ (Nat.log2_self_le hpos)
  have hbelow : n.toNat * 2 ^ (23 - n.toNat.log2) < 2 * 8388608 := by
    rw [← hplace, ← mul_assoc, ← pow_succ']
    exact Nat.mul_lt_mul_of_pos_right Nat.lt_log2_self (by positivity)
  refine ⟨n.toNat.log2, n.toNat * 2 ^ (23 - n.toNat.log2) - 8388608, hk, by omega, by omega, ?_⟩
  rw [ofNat32, if_neg h]
  exact congrArg (BitVec.ofNat 32) (by omega)

/-- P2 of binary32: scaling up to the significand and down by the exponent cancel. -/
theorem ofNat32_represents (n : Half) : binary32Reading.represents (ofNat32 n) n.toNat := by
  by_cases h : n = 0#16
  · subst h
    exact ⟨by decide, by decide +kernel⟩
  · obtain ⟨k, f, hk, hf, hsignificand, hpattern⟩ := ofNat32_eq_normal h
    obtain ⟨hfinite, hvalue⟩ := value32_ofNat_normal (e := k + 127) (by omega) (by omega) hf
    have hcancel : (2 : Rat) ^ (23 - k) * 2 ^ (((k + 127 : Nat) : Int) - 150) = 1 := by
      have hexponents : ((23 - k : Nat) : Int) + (((k + 127 : Nat) : Int) - 150) = 0 := by omega
      rw [← zpow_natCast, ← zpow_add₀ two_ne_zero, hexponents, zpow_zero]
    rw [hpattern]
    refine ⟨hfinite, ?_⟩
    rw [hvalue, ← hsignificand, Nat.cast_mul, Nat.cast_pow, Nat.cast_ofNat, mul_assoc, hcancel, mul_one]

@[simp] theorem round32_zero (negative : Bool) : round32 negative 0 = sign32 negative 0 := if_pos rfl

/-- P3 of binary32: zero times a finite pattern is one of the two zeros. -/
theorem isZero32_mul32_zero {p : Word} (h : isFinite32 p = true) : isZero32 (mul32 (ofNat32 0#16) p) = true := by
  have hfinite : isFinite32 (ofNat32 0#16) = true := by decide
  have hmagnitude : magnitude32 (ofNat32 0#16) = 0 := by decide +kernel
  simp [mul32, hfinite, h, hmagnitude]

theorem binary32Num_admissible : binary32Num.Admissible binary32Reading where
  ofNat_exact := ofNat32_represents
  mul_zero _ := isZero32_mul32_zero
  scale_100 := by decide +kernel

theorem exactNum_admissible : exactNum.Admissible exactReading where
  ofNat_exact _ := rfl
  mul_zero r _ := Rat.zero_mul r
  scale_100 := by decide +kernel

/-- Settles O32. -/
theorem binaryInstanceIsAdmissibleAndDiffersFromExact : Obligations.BinaryInstanceIsAdmissibleAndDiffersFromExact := by
  unfold Obligations.BinaryInstanceIsAdmissibleAndDiffersFromExact
  exact ⟨binary32Num_admissible, exactNum_admissible, by decide +kernel, by decide +kernel, by decide +kernel, by norm_num⟩

end Sys2Proof.Machine
end

section
/-! Responses and faults (R101 to R106): the kind of a command's response, the two faults, and what a fault leaves. -/

namespace Sys2Proof

/-- The three commands that need the value of ACC (R103). -/
def Instr.NeedsAcc (i : Instr) : Prop := i = .crcRead ∨ (∃ b, i = .crcByte b) ∨ (∃ lo hi, i = .crcChk lo hi)

end Sys2Proof

namespace Sys2Proof.Machine

/-- What a command can answer: the kind R101 lists for it, or, if it needs the value of ACC while there is none, the fault of
R103, which leaves ACC. -/
theorem commandRule_response_cases (c : Config) (i : Instr) (a : Acc) :
    i.ofKind (commandRule c i a).2 ∨
    (i.NeedsAcc ∧ a = .unwritten ∧ commandRule c i a = (.unwritten, .fault .accUninit)) := by
  cases i with
  | crcInit => exact .inl rfl
  | crcByte b =>
    cases a with
    | unwritten => exact .inr ⟨.inr (.inl ⟨b, rfl⟩), rfl, rfl⟩
    | value v => exact .inl rfl
  | crcRead =>
    cases a with
    | unwritten => exact .inr ⟨.inl rfl, rfl, rfl⟩
    | value v => exact .inl ⟨v, rfl⟩
  | crcChk lo hi =>
    cases a with
    | unwritten => exact .inr ⟨.inr (.inr ⟨lo, hi, rfl⟩), rfl, rfl⟩
    | value v => exact .inl ⟨_, rfl⟩
  | decCombu high low => exact .inl ⟨_, rfl⟩
  | decCombs high low => exact .inl ⟨_, rfl⟩
  | decSplit reg => exact .inl ⟨_, _, rfl⟩
  | decScale raw k => exact .inl ⟨_, rfl⟩

@[simp] theorem Rsp.wellFormed_fault {S : Type} (f : CmdFault) : (Rsp.fault f : Rsp S).wellFormed = true := rfl

@[simp] theorem Rsp.wellFormed_val32_iff {S : Type} (p : Word) (n : Int) :
    (Rsp.val32 p n : Rsp S).wellFormed = true ↔ n = (uint p : Int) ∨ n = sint p := by simp [Rsp.wellFormed]

/-- Of the kinds listed in R101 only those of DEC.COMBU and DEC.COMBS hold an integer, each one reading of its pattern. -/
theorem wellFormed_of_ofKind {S : Type} {i : Instr} {r : Rsp S} (h : i.ofKind r) : r.wellFormed = true := by
  cases i with
  | crcInit => cases h; rfl
  | crcByte b => cases h; rfl
  | crcRead => obtain ⟨v, rfl⟩ := h; rfl
  | crcChk lo hi => obtain ⟨m, rfl⟩ := h; rfl
  | decCombu high low => obtain ⟨p, rfl⟩ := h; exact (Rsp.wellFormed_val32_iff _ _).2 (.inl rfl)
  | decCombs high low => obtain ⟨p, rfl⟩ := h; exact (Rsp.wellFormed_val32_iff _ _).2 (.inr rfl)
  | decSplit reg => obtain ⟨hi, lo, rfl⟩ := h; rfl
  | decScale raw k => obtain ⟨x, rfl⟩ := h; rfl

/-- No command has a fault as its kind (R101). -/
theorem not_ofKind_fault {S : Type} (i : Instr) (f : CmdFault) : ¬ i.ofKind (.fault f : Rsp S) := by
  cases i <;> simp [Instr.ofKind]

theorem commandRule_response_wellFormed (c : Config) (i : Instr) (a : Acc) : (commandRule c i a).2.wellFormed = true := by
  obtain hkind | ⟨-, -, hfault⟩ := commandRule_response_cases c i a
  · exact wellFormed_of_ofKind hkind
  · rw [hfault, Rsp.wellFormed_fault]

theorem blockStep_response_wellFormed (c : Config) (a : Acc) (w : CmdWord) : (blockStep c a w).2.wellFormed = true := by
  cases hw : decode w with
  | error e => rw [blockStep_error hw, Rsp.wellFormed_fault]
  | ok i => rw [blockStep_ok hw, commandRule_response_wellFormed]

/-- Settles O44: idling and the reset event record nothing, a word records one well-formed response. -/
theorem everyStepKeepsResponsesWellFormed : Obligations.EveryStepKeepsResponsesWellFormed := by
  unfold Obligations.EveryStepKeepsResponsesWellFormed
  intro s t hs hstep
  obtain ⟨-, rfl⟩ | ⟨rest, -, rfl⟩ | ⟨w, rest, -, rfl⟩ := step_cases hstep
  · exact hs
  · exact hs
  · exact List.forall_mem_append.2 ⟨hs, List.forall_mem_singleton.2 (blockStep_response_wellFormed Config.block s.acc w)⟩

/-- Settles O45: the base case of O44. -/
theorem responsesWellFormedAtReset : Obligations.ResponsesWellFormedAtReset := by
  unfold Obligations.ResponsesWellFormedAtReset State.ResponsesWellFormed
  simp

/-- A command answered by a fault is one of the three, and met ACC UNWRITTEN (R103). -/
theorem commandRule_eq_fault {c : Config} {i : Instr} {a : Acc} {f : CmdFault} (h : (commandRule c i a).2 = .fault f) :
    f = .accUninit ∧ a = .unwritten ∧ i.NeedsAcc := by
  obtain hkind | ⟨hneeds, ha, hfault⟩ := commandRule_response_cases c i a
  · rw [h] at hkind
    exact absurd hkind (not_ofKind_fault i f)
  · rw [hfault] at h
    cases h
    exact ⟨rfl, ha, hneeds⟩

/-- Settles O18. -/
theorem accUninitExactlyWhileUnwritten : Obligations.AccUninitExactlyWhileUnwritten := by
  unfold Obligations.AccUninitExactlyWhileUnwritten
  constructor
  · rintro i s (rfl | ⟨b, rfl⟩ | ⟨lo, hi, rfl⟩) hacc
    all_goals exact exec_unwritten rfl hacc
  · intro i s t f hexec hresponses
    rw [exec_eq_commandRule] at hexec
    cases hexec
    have hresponse : (commandRule Config.block i s.acc).2 = .fault f := by simpa using hresponses
    obtain ⟨hf, hacc, hneeds⟩ := commandRule_eq_fault hresponse
    exact ⟨hf, hacc, (commandRule_acc_of_fault hresponse).trans hacc, hneeds⟩

/-- Settles O38: a run over words is the block's run, which gives one response per word. -/
theorem everyRunEndsWithOneResponsePerCommand : Obligations.EveryRunEndsWithOneResponsePerCommand := by
  unfold Obligations.EveryRunEndsWithOneResponsePerCommand
  exact fun ws s => ⟨_, _, runWords_eq_blockRun ws s, rfl, rfl, blockRun_responses_length Config.block s.acc ws⟩

theorem commandRule_ofKind_or_accUninit (c : Config) (i : Instr) (a : Acc) :
    i.ofKind (commandRule c i a).2 ∨ (commandRule c i a).2 = .fault .accUninit :=
  (commandRule_response_cases c i a).imp_right fun ⟨_, _, hfault⟩ => by rw [hfault]

/-- Settles O39: a word either decodes, and its command's rule answers, or is illegal. -/
theorem everyCommandAnswersOnceWithItsKind : Obligations.EveryCommandAnswersOnceWithItsKind := by
  unfold Obligations.EveryCommandAnswersOnceWithItsKind
  refine ⟨fun w s => ⟨_, _, step_offer_command_eq_blockStep w s, rfl, ?_⟩,
    fun i s => ⟨_, _, exec_eq_commandRule i s, rfl, commandRule_ofKind_or_accUninit Config.block i s.acc⟩, rfl, rfl⟩
  cases hw : decode w with
  | error e => exact .inr ⟨nofun, by rw [blockStep_error hw]⟩
  | ok i =>
    rw [blockStep_ok hw]
    exact .inl ⟨i, rfl, commandRule_ofKind_or_accUninit Config.block i s.acc⟩

/-- A word answered by a fault, an illegal one included, leaves ACC (R106). -/
theorem blockStep_acc_of_fault {c : Config} {a : Acc} {w : CmdWord} {f : CmdFault} (h : (blockStep c a w).2 = .fault f) :
    (blockStep c a w).1 = a := by
  cases hw : decode w with
  | error e => rw [blockStep_error hw]
  | ok i =>
    rw [blockStep_ok hw] at h ⊢
    exact commandRule_acc_of_fault h

/-- The ACC an input leaves and the responses it adds depend on the input and ACC only (R22, R115). -/
theorem step_offer_of_acc (x : Input) (a : Acc) : ∃ a' rs, ∀ s : State, s.acc = a →
    step (s.offer x) = .next { s with acc := a', responses := s.responses ++ rs } := by
  cases x with
  | reset => exact ⟨.unwritten, [], fun s _ => by rw [step_offer_reset, resetEvent_eq, List.append_nil]⟩
  | command w =>
    exact ⟨(blockStep Config.block a w).1, [(blockStep Config.block a w).2],
      fun s hs => by rw [step_offer_command_eq_blockStep, hs]⟩

/-- Settles O41: a fault leaves ACC, and a next input meets nothing else of the block's. -/
theorem faultingCommandLeavesNoTrace : Obligations.FaultingCommandLeavesNoTrace := by
  unfold Obligations.FaultingCommandLeavesNoTrace
  intro w x s t f hstep hresponses
  rw [step_offer_command_eq_blockStep] at hstep
  cases hstep
  have hresponse : (blockStep Config.block s.acc w).2 = .fault f := by simpa using hresponses
  have hacc : (blockStep Config.block s.acc w).1 = s.acc := blockStep_acc_of_fault hresponse
  obtain ⟨a, rs, hnext⟩ := step_offer_of_acc x s.acc
  exact ⟨hacc, rfl, a, rs, hnext _ hacc, hnext s rfl⟩

end Sys2Proof.Machine
end

section
/-! Reset and consecutive messages (R115, R118). -/

namespace Sys2Proof.Machine

/-- CRC.READ and CRC.CHK only look at the value of ACC (R65, R66). -/
theorem blockRun_crcRead_crcChk_acc (c : Config) (v : Half) (lo hi : Byte) :
    (blockRun c (.value v) ([Instr.crcRead, .crcChk lo hi].map encode)).1 = .value v := by
  simp

/-- Bytes fed after a message and its read and check go into the CRC that message left (R118). -/
theorem blockRun_continued_message_acc (c : Config) (a : Acc) (first second : List Byte) (lo hi : Byte) :
    (blockRun c a ((crcMsg first ++ [Instr.crcRead, .crcChk lo hi] ++ second.map Instr.crcByte).map encode)).1 =
      .value (computeCrc (first ++ second)) := by
  rw [List.map_append, List.map_append, blockRun_append, blockRun_append, blockRun_crcMsg, blockRun_crcRead_crcChk_acc,
    blockRun_map_crcByte, computeCrc_append]

/-- A message fed with its CRC.INIT leaves its own CRC, whatever ran before it (R118). -/
theorem blockRun_append_crcMsg_acc (c : Config) (a : Acc) (is : List Instr) (bytes : List Byte) :
    (blockRun c a ((is ++ crcMsg bytes).map encode)).1 = .value (computeCrc bytes) := by
  rw [List.map_append, blockRun_append, blockRun_crcMsg]

/-- Settles O22: without CRC.INIT the second message folds into the CRC of the first; with it, it starts anew. -/
theorem messageWithoutInitContinuesTheLast : Obligations.MessageWithoutInitContinuesTheLast := by
  unfold Obligations.MessageWithoutInitContinuesTheLast
  intro first second lo hi s
  exact ⟨⟨_, runInstrs_eq_blockRun _ s, blockRun_continued_message_acc Config.block s.acc first second lo hi⟩,
    ⟨_, runInstrs_eq_blockRun _ s, blockRun_append_crcMsg_acc Config.block s.acc (crcMsg first) second⟩⟩

/-- Settles O35: the step takes the offered event and is the reset event in the state before the offer. -/
theorem resetEventLeavesAccUnwritten : Obligations.ResetEventLeavesAccUnwritten := by
  unfold Obligations.ResetEventLeavesAccUnwritten
  intro s
  rw [step_offer_reset, resetEvent_eq]

end Sys2Proof.Machine
end
